-- ==== Sys2Proof/Word.lean ====
section
/-! DEFINITION. The widths of QCH: bytes of `M` (00_scope R4) and 32-bit words of the registers and the hash engines
(R4, R9, R131). -/

namespace Sys2Proof

/-- The unit of `M`, and the width of a command word and of `CAUSE` (R4): 8 bits. -/
abbrev Byte := BitVec 8

/-- The unit of the hash engines and the width of the offset registers (R4): 32 bits. -/
abbrev Word := BitVec 32

end Sys2Proof
end

