-- ==== Sys2Proof/Config.lean ====
section
/-! DEFINITION. What is fixed for one QCH: the two open parameters of 00_scope R4, and the free values that stand for
what a RESET move leaves unspecified (10_state R35, 93 U10). -/

namespace Sys2Proof

/-- The two open parameters of R4, with the ranges R4 gives them. -/
structure Params where
  /-- `MEM_SIZE`: the number of bytes of `M`. -/
  memSize : Nat
  /-- `XBYTES`: the number of bytes of `X`. -/
  xbytes : Nat
  memSize_pos : 1 ≤ memSize
  memSize_le : memSize ≤ 2 ^ 31
  xbytes_ge : 9 ≤ xbytes
deriving DecidableEq, Repr

/-- `XW = 8 * XBYTES`, the width of `X` in bits (R4). -/
abbrev Params.xw (p : Params) : Nat := 8 * p.xbytes

/-- The values the test vectors of 95_test_vectors.md assume (R4): MEM_SIZE = 4096, XBYTES = 16.
DESIGN CHOICE, log 1: the state after reset carries them. -/
def Params.vectors : Params where
  memSize := 4096
  xbytes := 16
  memSize_pos := by decide
  memSize_le := by decide
  xbytes_ge := by decide

/-- FREE VALUE: what the `count`-th RESET move leaves in the 32-bit register number `r` (R35, 93 U10; log 4).
It has no body: nothing can evaluate it or prove a value of it. -/
opaque Config.freeReg : (count r : Nat) → Word

/-- FREE VALUE: what the `count`-th RESET move leaves in `X`, `w` bits wide (R35, 93 U10; log 4). -/
opaque Config.freeX : (w count : Nat) → BitVec w

end Sys2Proof
end

