-- ==== Sys2Proof/Syntax.lean ====
section
/-! DEFINITION. The eleven commands of QCH (30_encoding R71), one constructor a row of spec/opcode_table.json.
No command has an operand field (R70, R72). -/

namespace Sys2Proof

/-- The commands, in the order of R71. -/
inductive Instr where
  /-- `RDU_BE` (40_codec_read R91). -/
  | rduBe
  /-- `RDU_LE` (40_codec_read R92). -/
  | rduLe
  /-- `RD_S64BE` (40_codec_read R94). -/
  | rdS64be
  /-- `RD_U64BE` (40_codec_read R95). -/
  | rdU64be
  /-- `WRX_LE` (41_codec_write R111). -/
  | wrxLe
  /-- `WR_S64BE` (41_codec_write R112). -/
  | wrS64be
  /-- `WR_U64BE` (41_codec_write R113). -/
  | wrU64be
  /-- `MD5` (45_md5 R190). -/
  | md5
  /-- `SHA1` (43_sha1 R150). -/
  | sha1
  /-- `SHA256` (44_sha256 R170). -/
  | sha256
  /-- `UUID4` (46_uuid R210). -/
  | uuid4
deriving DecidableEq, Repr

end Sys2Proof
end

