-- ==== Sys2Proof/WellFormed.lean ====
section
/-! DEFINITION. Well-formedness. A command has no operand field (R70, R72), so every `Instr` is well formed: the check
of QCH's syntax is on the command WORD, and it is the list of reserved words of 30_encoding R73. The checks on host
moves (R76) stand with the host's port, Machine/HostPort.lean. -/

namespace Sys2Proof

/-- The 245 reserved command words as R73 lists them: `0x00`-`0x0F`, `0x14`-`0x1F`, `0x21`, `0x24`-`0x2F`,
`0x33`-`0x3F`, `0x41`-`0xFF`. -/
def reservedWord (c : Byte) : Bool :=
  let w := c.toNat
  decide (w ≤ 0x0F) || (decide (0x14 ≤ w) && decide (w ≤ 0x1F)) || decide (w = 0x21)
    || (decide (0x24 ≤ w) && decide (w ≤ 0x2F)) || (decide (0x33 ≤ w) && decide (w ≤ 0x3F)) || decide (0x41 ≤ w)

/-- A command word is well formed when R73 does not reserve it. -/
def wellFormedWord (c : Byte) : Bool := !reservedWord c

/-- Every command is well formed: it has no field that could hold an illegal value (R72). -/
def Instr.wellFormed : Instr → Bool
  | .rduBe | .rduLe | .rdS64be | .rdU64be | .wrxLe | .wrS64be | .wrU64be | .md5 | .sha1 | .sha256 | .uuid4 => true

end Sys2Proof
end

