-- ==== Sys2Proof/Decode.lean ====
section
/-! DEFINITION. The decoder and the encoder of command words (30_encoding R70, R71, R73). A decoder reads one byte and
looks it up (R70): there is no other form. -/

namespace Sys2Proof

/-- Why a command word is not a command. -/
inductive DecodeError where
  /-- The word is not in the table of R71, so it is reserved (R73). -/
  | reserved (word : Byte)
deriving DecidableEq, Repr

/-- The opcode map, row by row as R71 prints it (word, command). -/
def opcodeMap : List (Byte × Instr) :=
  [(0x10#8, .rduBe), (0x11#8, .rduLe), (0x12#8, .rdS64be), (0x13#8, .rdU64be)]
  ++ [(0x20#8, .wrxLe), (0x22#8, .wrS64be), (0x23#8, .wrU64be)]
  ++ [(0x30#8, .md5), (0x31#8, .sha1), (0x32#8, .sha256), (0x40#8, .uuid4)]

/-- The row of the map whose word is `c`, all eight bits significant (R71: the mask is `0xFF`). -/
def lookupWord (c : Byte) : List (Byte × Instr) → Option Instr
  | [] => none
  | (w, i) :: rows => if c = w then some i else lookupWord c rows

/-- Decode one command word: the command of R71, or the refusal by name of a reserved word (R73). -/
def decode (c : Byte) : Except DecodeError Instr :=
  match lookupWord c opcodeMap with
  | some i => .ok i
  | none => .error (.reserved c)

/-- The `unit` field, bits 7:4 (R70; the binary column of R71). -/
def Instr.unitField : Instr → BitVec 4
  | .rduBe | .rduLe | .rdS64be | .rdU64be => 0b0001#4
  | .wrxLe | .wrS64be | .wrU64be => 0b0010#4
  | .md5 | .sha1 | .sha256 => 0b0011#4
  | .uuid4 => 0b0100#4

/-- The `fn` field, bits 3:0 (R70; the binary column of R71). -/
def Instr.fnField : Instr → BitVec 4
  | .rduBe => 0b0000#4
  | .rduLe => 0b0001#4
  | .rdS64be => 0b0010#4
  | .rdU64be => 0b0011#4
  | .wrxLe => 0b0000#4
  | .wrS64be => 0b0010#4
  | .wrU64be => 0b0011#4
  | .md5 => 0b0000#4
  | .sha1 => 0b0001#4
  | .sha256 => 0b0010#4
  | .uuid4 => 0b0000#4

/-- Encode a command: format `C`, `unit` in bits 7:4 and `fn` in bits 3:0 (R70). -/
def encode (i : Instr) : Byte := i.unitField ++ i.fnField

/-- The command word whose bits are `w`, of `nbits` bits, as spec/opcode_table.json numbers them: a command word is one
byte (R70), so the bits above the first byte are no part of it. -/
def commandWordOf (nbits w : Nat) : Byte := BitVec.ofNat 8 (w % 2 ^ nbits)

/-- What the decoder reads from the instruction whose bits are `w`. -/
def decodeTableWord (nbits w : Nat) : Option Instr :=
  match decode (commandWordOf nbits w) with
  | .ok i => some i
  | .error _ => none

end Sys2Proof
end

