-- ==== Sys2Proof/Machine/State.lean ====
section
/-! DEFINITION. The state of QCH as plain data (10_state R20), the host's moves (30_encoding R76), the error kinds
(60_exceptions R220) and the two ways a step of the model can stop. -/

namespace Sys2Proof.Machine

/-- `M`: the bytes that hold a value, as (offset, byte) pairs with the offsets strictly rising. An offset that is not
listed holds NO VALUE: nothing has written it since reset (R35, 93 U1; log 3). -/
abbrev Memory := List Host.Cell

/-- The six moves of the host (R76). The arguments are unrestricted here; Machine/HostPort.lean refuses what R76 does
not allow. -/
inductive HostMove where
  /-- `HWR r, v`: write value `v` to register number `r` (R34). -/
  | hwr (r : Nat) (v : Int)
  /-- `HRD r`: read register number `r` (R34). -/
  | hrd (r : Nat)
  /-- `HSB a, v`: store byte `v` at `M[a]`. -/
  | hsb (a v : Nat)
  /-- `HLB a`: load byte `M[a]`. -/
  | hlb (a : Nat)
  /-- `CMD c`: write the command word `c` to `CMD`, which executes it. -/
  | cmd (c : Byte)
  /-- `RESET` (R250). -/
  | reset
deriving DecidableEq, Repr

/-- The error kinds a command can end in (R220). -/
inductive Cause where
  /-- R221. -/
  | rangeError
  /-- R222. -/
  | lengthError
  /-- R223: reserved, no command raises it. -/
  | encodingError
  /-- R224. -/
  | illegalCommand
  /-- R225. -/
  | boundsFault
  /-- R226. -/
  | precisionFault
  /-- R227. -/
  | orderFault
deriving DecidableEq, Repr

/-- Why the model stops on a use of a value that does not exist. The spec's own errors are no faults: they are next
states with a code in `CAUSE` (R236). -/
inductive Fault where
  /-- Raised by RDU_BE, RDU_LE, RD_S64BE, RD_U64BE, MD5, SHA1, SHA256, UUID4 and the host's HLB when a byte of the read
  extent has not been written since reset: it "holds no value" and the step "has no defined result" (R35, R252, 93 U1).
  SAFE: the model stops where the hardware goes on with some value. -/
  | unwrittenByte
deriving DecidableEq, Repr

/-- Why the model gives a step no meaning. -/
inductive Refusal where
  /-- Raised by exec's arm of a command that has no meaning yet (none is left). SAFE: the model stops. -/
  | notModelled (mnemonic : String)
  /-- Raised by the host's port for a move outside the table of R76: a register number of 7 or more, an offset at or
  past MEM_SIZE, a value out of range ("a model refuses it rather than give it a meaning"). SAFE: the model stops. -/
  | moveNotAllowed
deriving DecidableEq, Repr

/-- The state: the seven items of R20 under the spec's names (`cause` is `CAUSE`, `mem` is `M`), and the model's own
`params`, `script`, `replies` and `resets`. -/
structure State where
  /-- The model's own (log 1): MEM_SIZE and XBYTES of R4, which no step changes. -/
  params : Params
  /-- Source offset: `start` or `offset` (R21). -/
  A : Word
  /-- Source end offset, exclusive (R21). -/
  B : Word
  /-- Destination offset (R21). -/
  D : Word
  /-- The number a writing command returns (R22). -/
  N : Word
  /-- The value register, XW bits (R23). -/
  X : BitVec params.xw
  /-- `CAUSE`: outcome of the most recent command (R25). -/
  cause : Byte
  /-- `M`, the buffer memory (R29). -/
  mem : Memory
  /-- The model's own (log 6): the host's moves still to be made, first move first. -/
  script : List HostMove
  /-- The model's own (log 8): what HRD and HLB have delivered to the host, oldest first. -/
  replies : List Nat
  /-- The model's own (log 4): how many RESET moves have been made, the counter of the free values. -/
  resets : Nat
deriving DecidableEq, Repr

/-- QCH right after power-up (R35, R250): `CAUSE = 0`, no byte of `M` holds a value. The spec gives `A`, `B`, `D`, `N`,
`X` no reset value: DESIGN CHOICE 0 for each (log 2). The parameters are the test vectors' (log 1). No script is
loaded (log 6). -/
def State.reset : State where
  params := Params.vectors
  A := 0#32
  B := 0#32
  D := 0#32
  N := 0#32
  X := BitVec.ofNat _ 0
  cause := 0#8
  mem := []
  script := []
  replies := []
  resets := 0

end Sys2Proof.Machine
end

