-- ==== Sys2Proof/Machine/Flags.lean ====
section
/-! DEFINITION. QCH has no flags (10_state R28): the only status is `CAUSE`, whose codes stand here (60_exceptions R220),
with the bit form of the sign and overflow validator (41_codec_write R114), whose failure is the RangeError of the
64-bit writers. -/

namespace Sys2Proof.Machine

/-- The value an error kind leaves in `CAUSE` (R25, R220). -/
def causeCode : Cause → Byte
  | .rangeError => 1#8
  | .lengthError => 2#8
  | .encodingError => 3#8
  | .illegalCommand => 4#8
  | .boundsFault => 5#8
  | .precisionFault => 6#8
  | .orderFault => 7#8

/-- The value of `CAUSE` after a command that succeeded (R220). -/
def successCode : Byte := 0#8

/-- `signed_ok(p)`: bits `XW-1..63` are all equal (R114). -/
def signedOk (W : Nat) (p : BitVec W) : Bool :=
  p.toNat / 2 ^ 63 == 0 || p.toNat / 2 ^ 63 == 2 ^ (W - 63) - 1

/-- `unsigned_ok(p)`: bits `XW-1..64` are all zero (R114). -/
def unsignedOk (W : Nat) (p : BitVec W) : Bool := p.toNat / 2 ^ 64 == 0

end Sys2Proof.Machine
end

