-- ==== Sys2Proof/Machine/Operands.lean ====
section
/-! DEFINITION. How operands are read and results formed: byte sequences and integers (00_scope R7), fixed-width values
(R8), 32-bit word operations (R9), and the words and blocks of the hash engines (42_hash_common R131). -/

namespace Sys2Proof.Machine

/-! ## Byte sequences and integers (R7) -/

/-- `be_val(s)`: the first byte is the most significant. The accumulation is R91's: `acc * 256 + byte`, exact (R96). -/
def beVal (s : List Byte) : Nat := s.foldl (fun acc y => acc * 256 + y.toNat) 0

/-- `le_val(s)`: the first byte is the least significant. -/
def leVal : List Byte → Nat
  | [] => 0
  | y :: s => y.toNat + 256 * leVal s

/-- `le_bytes(v, n)`: the `n` base-256 digits of `v`, least significant first (byte `i` is `floor(v / 256^i) mod 256`). -/
def leBytes (v : Nat) : Nat → List Byte
  | 0 => []
  | n + 1 => BitVec.ofNat 8 v :: leBytes (v / 256) n

/-- `be_bytes(v, n) = rev(le_bytes(v, n))` (R7). -/
def beBytes (v n : Nat) : List Byte := (leBytes v n).reverse

/-- `bytelen(v)`: the least `k` with `v < 256^k` (R8). -/
def byteLen (v : Nat) : Nat := if v = 0 then 0 else Nat.log2 v / 8 + 1

/-! ## Fixed-width values (R8) -/

/-- `sval_W(p)`: the two's complement reading of the `W`-bit pattern `p` given as an unsigned integer. -/
def sval (W p : Nat) : Int := if p < 2 ^ (W - 1) then (p : Int) else (p : Int) - (2 : Int) ^ W

/-- `zext_W(v)`: the pattern `v`. -/
def zext (W v : Nat) : BitVec W := BitVec.ofNat W v

/-- `sext_W(v)`: the pattern `v mod 2^W`. -/
def sext (W : Nat) (v : Int) : BitVec W := BitVec.ofInt W v

/-! ## 32-bit word operations (R9); `add32`, `and32`, `or32`, `xor32`, `not32` are `+`, `&&&`, `|||`, `^^^`, `~~~` -/

/-- `rotl32(a, n)`, used for `0 < n < 32` only. -/
def rotl32 (a : Word) (n : Nat) : Word := (a <<< n) ||| (a >>> (32 - n))

/-- `rotr32(a, n) = rotl32(a, 32 - n)`, used for `0 < n < 32` only. -/
def rotr32 (a : Word) (n : Nat) : Word := rotl32 a (32 - n)

/-- `shr32(a, n)`: logical shift right, used for `0 < n < 32` only. -/
def shr32 (a : Word) (n : Nat) : Word := a >>> n

/-! ## Words and blocks of the hash engines (R131) -/

/-- The first `n` consecutive pieces of `size` elements of a sequence. -/
def chunks (size : Nat) : Nat → List Byte → List (List Byte)
  | 0, _ => []
  | n + 1, s => s.take size :: chunks size n (s.drop size)

/-- The 16 words of a block: word `j` is made from the bytes `4j .. 4j+3` by `val` (big-endian for SHA-1 and SHA-256,
little-endian for MD5). -/
def blockWords (val : List Byte → Nat) (block : List Byte) : List Word :=
  (chunks 4 16 block).map fun q => BitVec.ofNat 32 (val q)

end Sys2Proof.Machine
end

