-- ==== Sys2Proof/Machine/Ops.lean ====
section
/-! DEFINITION. The shared operations: memory (00_scope R11), the two ways a command ends (R12; taking an error is
60_exceptions R229, and there is no return from one, R230), and the checks and extents the commands share. -/

namespace Sys2Proof.Machine

/-! ## The buffer memory (R11, R29) -/

/-- The canonical form: the offsets are strictly rising. An unlisted offset holds no value, so no entry can equal what
an unlisted offset reads as. -/
def Memory.wf : Memory → Bool
  | [] => true
  | (k, _) :: m => m.all (fun c => decide (k < c.1)) && Memory.wf m

/-- Every listed offset lies below `MEM_SIZE` (R50). -/
def memBelow (size : Nat) (m : Memory) : Bool := m.all fun c => decide (c.1 < size)

/-- `M[a]`, if a value has been written there (R11, 93 U1). -/
def memByte : Memory → Nat → Option Byte
  | [], _ => none
  | (k, y) :: m, a => if k = a then some y else memByte m a

/-- `M[a] <- y`. -/
def memPut : Memory → Nat → Byte → Memory
  | [], a, y => [(a, y)]
  | (k, z) :: m, a, y =>
    if a < k then (a, y) :: (k, z) :: m
    else if a = k then (a, y) :: m
    else (k, z) :: memPut m a y

/-- `MemRead(a, n)`: the byte sequence `M[a..a+n)`, if every byte of it has been written (R11, 93 U1). -/
def memRead (m : Memory) (a : Nat) : Nat → Option (List Byte)
  | 0 => some []
  | n + 1 =>
    match memByte m a, memRead m (a + 1) n with
    | some y, some s => some (y :: s)
    | _, _ => none

/-- `MemWrite(a, n, s)` with `n = len(s)` (R11). -/
def memWrite (m : Memory) (a : Nat) : List Byte → Memory
  | [] => m
  | y :: s => memWrite (memPut m a y) (a + 1) s

/-! ## Ending a command (R12) -/

/-- The state after `raise <Kind>`: `CAUSE` takes the kind's code and NOTHING else changes (R12, R229). -/
def raised (k : Cause) (s : State) : State := { s with cause := causeCode k }

/-- The state after a reading command succeeded: `X <- p`, `done` (R12, R90). -/
def loaded (s : State) (p : BitVec s.params.xw) : State := { s with X := p, cause := successCode }

/-- The state after a writing command succeeded: `M[D..D+len(out)) <- out`, `N <- v`, `done` (R12, R22). -/
def stored (out : List Byte) (v : Nat) (s : State) : State :=
  { s with mem := memWrite s.mem s.D.toNat out, N := BitVec.ofNat 32 v, cause := successCode }

/-- `raise <Kind>`: taking an error is this one operation for every command, and the command is over (R12, R229). -/
def raise (k : Cause) (s : State) : Host.Outcome State Fault Refusal := .next (raised k s)

/-- The end of every reading command. -/
def loadAndDone (s : State) (p : BitVec s.params.xw) : Host.Outcome State Fault Refusal := .next (loaded s p)

/-- The end of every writing command. -/
def storeAndDone (out : List Byte) (v : Nat) (s : State) : Host.Outcome State Fault Refusal := .next (stored out v s)

/-! ## Extents (20_memory R51, R56): offsets are unbounded integers, no sum wraps (R13) -/

/-- The operand check of the five range commands: `OrderFault` before `LengthError` (R91, R135, R228). -/
def checkRange (s : State) (k : Host.Outcome State Fault Refusal) : Host.Outcome State Fault Refusal :=
  if s.A.toNat > s.B.toNat then raise .orderFault s
  else if s.B.toNat > s.params.memSize then raise .lengthError s
  else k

/-- The read extent check of the fixed-length readers: `[A, A+n)` must end at or before `MEM_SIZE` (R222). -/
def checkSource (n : Nat) (s : State) (k : Host.Outcome State Fault Refusal) : Host.Outcome State Fault Refusal :=
  if s.A.toNat + n > s.params.memSize then raise .lengthError s else k

/-- The write extent check: `[D, D+n)` must end at or before `MEM_SIZE` (R225). -/
def checkDest (n : Nat) (s : State) (k : Host.Outcome State Fault Refusal) : Host.Outcome State Fault Refusal :=
  if s.D.toNat + n > s.params.memSize then raise .boundsFault s else k

/-- Read `M[A..A+n)` and go on with its bytes. Where a byte holds no value the step has no defined result (R35, 93 U1):
the model stops (log 3). All reads of a command come before all its writes (R58). -/
def withSource (n : Nat) (s : State) (k : List Byte → Host.Outcome State Fault Refusal) :
    Host.Outcome State Fault Refusal :=
  match memRead s.mem s.A.toNat n with
  | some bytes => k bytes
  | none => .fault .unwrittenByte

end Sys2Proof.Machine
end

