-- ==== Sys2Proof/Machine/CodecRead.lean ====
section
/-! DEFINITION. The codec readers (40_codec_read.md): RDU_BE, RDU_LE, RD_S64BE, RD_U64BE. -/

namespace Sys2Proof.Machine

/-- The body RDU_BE and RDU_LE share, with the byte order `val` (R91, R92): the third check is on the value, not on the
length of the range. -/
def readRange (val : List Byte → Nat) (s : State) : Host.Outcome State Fault Refusal :=
  checkRange s <|
    withSource (s.B.toNat - s.A.toNat) s fun bytes =>
      if val bytes ≥ 2 ^ s.params.xw then raise .precisionFault s
      else loadAndDone s (zext s.params.xw (val bytes))

/-- The 64-bit big-endian integer of 8 bytes, by its two 32-bit halves: `high * 2^32 + low`, exact (R94, R95, R96). -/
def read64 (bytes : List Byte) : Nat := beVal (bytes.take 4) * 2 ^ 32 + beVal (bytes.drop 4)

/-- The body RD_S64BE and RD_U64BE share (R94, R95): `ext` makes the pattern of `X` from the unsigned 64-bit integer. -/
def readFixed (ext : (W : Nat) → Nat → BitVec W) (s : State) : Host.Outcome State Fault Refusal :=
  checkSource 8 s <|
    withSource 8 s fun bytes => loadAndDone s (ext s.params.xw (read64 bytes))

/-- `RDU_BE` (R91). -/
def execRduBe (s : State) : Host.Outcome State Fault Refusal := readRange beVal s

/-- `RDU_LE` (R92): the byte at `A` is the least significant (90_conflicts C3). -/
def execRduLe (s : State) : Host.Outcome State Fault Refusal := readRange leVal s

/-- `RD_S64BE` (R94): two's complement, sign-extended to XW bits. -/
def execRdS64be (s : State) : Host.Outcome State Fault Refusal := readFixed (fun W u => sext W (sval 64 u)) s

/-- `RD_U64BE` (R95): zero-extended to XW bits. -/
def execRdU64be (s : State) : Host.Outcome State Fault Refusal := readFixed zext s

end Sys2Proof.Machine
end

