-- ==== Sys2Proof/Machine/CodecWrite.lean ====
section
/-! DEFINITION. The codec writers (41_codec_write.md): WRX_LE, WR_S64BE, WR_U64BE. The validator comes before the
extent check and both before the first byte is written (R110, R228). -/

namespace Sys2Proof.Machine

/-- The number of bytes WRX_LE writes for the value `v`: `max(8, bytelen(v))` (R111). -/
def extendedLen (v : Nat) : Nat := max 8 (byteLen v)

/-- `WRX_LE` (R111): `X` is read unsigned. -/
def execWrxLe (s : State) : Host.Outcome State Fault Refusal :=
  checkDest (extendedLen s.X.toNat) s <|
    storeAndDone (leBytes s.X.toNat (extendedLen s.X.toNat)) (extendedLen s.X.toNat) s

/-- The 8 bytes of a 64-bit pattern `u`, written as two 32-bit halves, each most significant byte first (R112). -/
def write64 (u : Nat) : List Byte := beBytes (u / 2 ^ 32) 4 ++ beBytes (u % 2 ^ 32) 4

/-- The body the 64-bit writers share (R112, R113): the value is the signed reading of `X`, validated against
`[lo, hi]`; the bytes are those of the value mod 2^64; `N <- D + 8`. -/
def writeFixed (lo hi : Int) (s : State) : Host.Outcome State Fault Refusal :=
  let v := sval s.params.xw s.X.toNat
  if v < lo ∨ v > hi then raise .rangeError s
  else checkDest 8 s <| storeAndDone (write64 (v % 2 ^ 64).toNat) (s.D.toNat + 8) s

/-- `WR_S64BE` (R112): the range is `[-2^63, 2^63 - 1]`. -/
def execWrS64be (s : State) : Host.Outcome State Fault Refusal := writeFixed (-(2 ^ 63)) (2 ^ 63 - 1) s

/-- `WR_U64BE` (R113): the range is `[0, 2^64 - 1]`. -/
def execWrU64be (s : State) : Host.Outcome State Fault Refusal := writeFixed 0 (2 ^ 64 - 1) s

end Sys2Proof.Machine
end

