-- ==== Sys2Proof/Machine/HashCommon.lean ====
section
/-! DEFINITION. What the three hash engines share (42_hash_common.md): padding R132, blocks R133, chaining R134, the
command template R135, and the message schedule's recurrence. The phases of R130 are the stages of `chain`: they lie
inside one atomic command and are no state (R30). -/

namespace Sys2Proof.Machine

/-- `k = (55 - L) mod 64`, the non-negative remainder: the number of zero bytes after `0x80` (R132). -/
def padZeros (len : Nat) : Nat := ((55 - (len : Int)) % 64).toNat

/-- `pad(msg, ord)` (R132); `lenBytes` is `be_bytes` (SHA-1, SHA-256) or `le_bytes` (MD5). -/
def pad (lenBytes : Nat → Nat → List Byte) (msg : List Byte) : List Byte :=
  msg ++ [0x80#8] ++ List.replicate (padZeros msg.length) 0x00#8 ++ lenBytes (8 * msg.length) 8

/-- The 64-byte blocks of a padded message, in order (R133). -/
def blocksOf (padded : List Byte) : List (List Byte) := chunks 64 (padded.length / 64) padded

/-- Chaining (R134): `H <- IV`, then `H <- compress(H, block)` for each block in order. -/
def chain {σ : Type} (iv : σ) (compress : σ → List Byte → σ) (padded : List Byte) : σ :=
  (blocksOf padded).foldl compress iv

/-- Extend a message schedule by `n` words, each computed by `next` from the words before it (R152, R174). -/
def extendSchedule (next : List Word → Word) : Nat → List Word → List Word
  | 0, ws => ws
  | n + 1, ws => extendSchedule next n (ws ++ [next ws])

/-- `W[j - back]` where the schedule so far is `W[0..j-1]`. -/
def wordBack (ws : List Word) (back : Nat) : Word := ws.getD (ws.length - back) 0

/-- `DigestCmd(hash, dl)` (R135): the checks, the whole input, the digest to `M[D..D+dl)`, `N <- dl`. -/
def digestCmd (hash : List Byte → List Byte) (dl : Nat) (s : State) : Host.Outcome State Fault Refusal :=
  checkRange s <| checkDest dl s <|
    withSource (s.B.toNat - s.A.toNat) s fun msg => storeAndDone (hash msg) dl s

end Sys2Proof.Machine
end

