-- ==== Sys2Proof/Machine/Md5.lean ====
section
/-! DEFINITION. The MD5 engine and the MD5 command (45_md5.md): words, length field and digest are little-endian. -/

namespace Sys2Proof.Machine

/-- The hash state `H[0..3]`, and the working variables `a b c d` (R30; 4 words, 90_conflicts C1). -/
structure Md5State where
  a : Word
  b : Word
  c : Word
  d : Word
deriving DecidableEq, Repr

/-- The initial state (R191). -/
def md5Iv : Md5State := ⟨0x67452301, 0xEFCDAB89, 0x98BADCFE, 0x10325476⟩

/-- The additive constants `T[0..63]`, four a row as R192 prints them. -/
def md5Table : List Word :=
  [0xd76aa478, 0xe8c7b756, 0x242070db, 0xc1bdceee]
  ++ [0xf57c0faf, 0x4787c62a, 0xa8304613, 0xfd469501]
  ++ [0x698098d8, 0x8b44f7af, 0xffff5bb1, 0x895cd7be]
  ++ [0x6b901122, 0xfd987193, 0xa679438e, 0x49b40821]
  ++ [0xf61e2562, 0xc040b340, 0x265e5a51, 0xe9b6c7aa]
  ++ [0xd62f105d, 0x02441453, 0xd8a1e681, 0xe7d3fbc8]
  ++ [0x21e1cde6, 0xc33707d6, 0xf4d50d87, 0x455a14ed]
  ++ [0xa9e3e905, 0xfcefa3f8, 0x676f02d9, 0x8d2a4c8a]
  ++ [0xfffa3942, 0x8771f681, 0x6d9d6122, 0xfde5380c]
  ++ [0xa4beea44, 0x4bdecfa9, 0xf6bb4b60, 0xbebfbc70]
  ++ [0x289b7ec6, 0xeaa127fa, 0xd4ef3085, 0x04881d05]
  ++ [0xd9d4d039, 0xe6db99e5, 0x1fa27cf8, 0xc4ac5665]
  ++ [0xf4292244, 0x432aff97, 0xab9423a7, 0xfc93a039]
  ++ [0x655b59c3, 0x8f0ccc92, 0xffeff47d, 0x85845dd1]
  ++ [0x6fa87e4f, 0xfe2ce6e0, 0xa3014314, 0x4e0811a1]
  ++ [0xf7537e82, 0xbd3af235, 0x2ad7d2bb, 0xeb86d391]

/-- `T[t]` (R192). -/
def md5T (t : Nat) : Word := md5Table.getD t 0

/-- The rotation amount `s[t]` (R193): each round of 16 steps repeats its four amounts. -/
def md5Shift (t : Nat) : Nat :=
  if t < 16 then [7, 12, 17, 22].getD (t % 4) 0
  else if t < 32 then [5, 9, 14, 20].getD (t % 4) 0
  else if t < 48 then [4, 11, 16, 23].getD (t % 4) 0
  else [6, 10, 15, 21].getD (t % 4) 0

/-- `f_t(b, c, d)` (R194): F, G, H, I. -/
def md5F (t : Nat) (b c d : Word) : Word :=
  if t < 16 then (b &&& c) ||| (~~~b &&& d)
  else if t < 32 then (b &&& d) ||| (c &&& ~~~d)
  else if t < 48 then b ^^^ c ^^^ d
  else c ^^^ (b ||| ~~~d)

/-- The message word index `g(t)` (R194). -/
def md5Index (t : Nat) : Nat :=
  if t < 16 then t
  else if t < 32 then (5 * t + 1) % 16
  else if t < 48 then (3 * t + 5) % 16
  else (7 * t) % 16

/-- `tmp` of step `t`, with `Xw[g(t)] = w` (R195). -/
def md5Tmp (t : Nat) (w : Word) (v : Md5State) : Word := v.a + md5F t v.b v.c v.d + w + md5T t

/-- Step `t` on the working variables (R195): all from the values before the step. -/
def md5Step (t : Nat) (w : Word) (v : Md5State) : Md5State where
  a := v.d
  b := v.b + rotl32 (md5Tmp t w v) (md5Shift t)
  c := v.b
  d := v.c

/-- The working variables after the first `n` steps on the block words `xw` (R195). -/
def md5Steps (xw : List Word) (v : Md5State) : Nat → Md5State
  | 0 => v
  | t + 1 => md5Step t (xw.getD (md5Index t) 0) (md5Steps xw v t)

/-- State update (R196): word by word mod 2^32. -/
def md5Add (h v : Md5State) : Md5State := ⟨h.a + v.a, h.b + v.b, h.c + v.c, h.d + v.d⟩

/-- `compress_md5(H, block)` (R191 to R196). -/
def md5Compress (h : Md5State) (block : List Byte) : Md5State := md5Add h (md5Steps (blockWords leVal block) h 64)

/-- `serialise_md5(H)` (R197): each word least significant byte first. -/
def md5Serialise (h : Md5State) : List Byte :=
  leBytes h.a.toNat 4 ++ leBytes h.b.toNat 4 ++ leBytes h.c.toNat 4 ++ leBytes h.d.toNat 4

/-- The whole function (R198): the length field is little-endian. -/
def md5Hash (msg : List Byte) : List Byte := md5Serialise (chain md5Iv md5Compress (pad leBytes msg))

/-- `MD5` (R190): `DigestCmd(md5, 16)`. -/
def execMd5 (s : State) : Host.Outcome State Fault Refusal := digestCmd md5Hash 16 s

end Sys2Proof.Machine
end

