-- ==== Sys2Proof/Machine/Sha1.lean ====
section
/-! DEFINITION. The SHA-1 engine and the SHA1 command (43_sha1.md). -/

namespace Sys2Proof.Machine

/-- The hash state `H[0..4]`, and the working variables `a b c d e` (R30). -/
structure Sha1State where
  a : Word
  b : Word
  c : Word
  d : Word
  e : Word
deriving DecidableEq, Repr

/-- The initial state (R151). -/
def sha1Iv : Sha1State := ⟨0x67452301, 0xEFCDAB89, 0x98BADCFE, 0x10325476, 0xC3D2E1F0⟩

/-- `f_t(b, c, d)` (R153): Ch, Parity, Maj, Parity. -/
def sha1F (t : Nat) (b c d : Word) : Word :=
  if t < 20 then (b &&& c) ||| (~~~b &&& d)
  else if t < 40 then b ^^^ c ^^^ d
  else if t < 60 then (b &&& c) ||| (b &&& d) ||| (c &&& d)
  else b ^^^ c ^^^ d

/-- `K_t` (R153). -/
def sha1K (t : Nat) : Word :=
  if t < 20 then 0x5A827999 else if t < 40 then 0x6ED9EBA1 else if t < 60 then 0x8F1BBCDC else 0xCA62C1D6

/-- `W[j] = rotl32(W[j-3] xor W[j-8] xor W[j-14] xor W[j-16], 1)` (R152). -/
def sha1Next (ws : List Word) : Word :=
  rotl32 (wordBack ws 3 ^^^ wordBack ws 8 ^^^ wordBack ws 14 ^^^ wordBack ws 16) 1

/-- The 80-word message schedule of a block (R152). -/
def sha1Schedule (block : List Byte) : List Word := extendSchedule sha1Next 64 (blockWords beVal block)

/-- Step `t` on the working variables, with `W[t] = w` (R154): all from the values before the step. -/
def sha1Step (t : Nat) (w : Word) (v : Sha1State) : Sha1State where
  a := rotl32 v.a 5 + sha1F t v.b v.c v.d + v.e + sha1K t + w
  b := v.a
  c := rotl32 v.b 30
  d := v.c
  e := v.d

/-- The working variables after the first `n` steps (R154). -/
def sha1Steps (ws : List Word) (v : Sha1State) : Nat → Sha1State
  | 0 => v
  | t + 1 => sha1Step t (ws.getD t 0) (sha1Steps ws v t)

/-- State update (R155): word by word mod 2^32. -/
def sha1Add (h v : Sha1State) : Sha1State := ⟨h.a + v.a, h.b + v.b, h.c + v.c, h.d + v.d, h.e + v.e⟩

/-- `compress_sha1(H, block)` (R152 to R155). -/
def sha1Compress (h : Sha1State) (block : List Byte) : Sha1State := sha1Add h (sha1Steps (sha1Schedule block) h 80)

/-- `serialise_sha1(H)` (R156). -/
def sha1Serialise (h : Sha1State) : List Byte :=
  beBytes h.a.toNat 4 ++ beBytes h.b.toNat 4 ++ beBytes h.c.toNat 4 ++ beBytes h.d.toNat 4 ++ beBytes h.e.toNat 4

/-- The whole function (R157). -/
def sha1Hash (msg : List Byte) : List Byte := sha1Serialise (chain sha1Iv sha1Compress (pad beBytes msg))

/-- `SHA1` (R150): `DigestCmd(sha1, 20)`. -/
def execSha1 (s : State) : Host.Outcome State Fault Refusal := digestCmd sha1Hash 20 s

end Sys2Proof.Machine
end

