-- ==== Sys2Proof/Machine/Sha256.lean ====
section
/-! DEFINITION. The SHA-256 engine and the SHA256 command (44_sha256.md). -/

namespace Sys2Proof.Machine

/-- The hash state `H[0..7]`, and the working variables `a` to `h` (R30). -/
structure Sha256State where
  a : Word
  b : Word
  c : Word
  d : Word
  e : Word
  f : Word
  g : Word
  h : Word
deriving DecidableEq, Repr

/-- The initial state (R171). -/
def sha256Iv : Sha256State :=
  ⟨0x6a09e667, 0xbb67ae85, 0x3c6ef372, 0xa54ff53a, 0x510e527f, 0x9b05688c, 0x1f83d9ab, 0x5be0cd19⟩

/-- The round constants `K[0..63]`, four a row as R172 prints them. -/
def sha256Table : List Word :=
  [0x428a2f98, 0x71374491, 0xb5c0fbcf, 0xe9b5dba5]
  ++ [0x3956c25b, 0x59f111f1, 0x923f82a4, 0xab1c5ed5]
  ++ [0xd807aa98, 0x12835b01, 0x243185be, 0x550c7dc3]
  ++ [0x72be5d74, 0x80deb1fe, 0x9bdc06a7, 0xc19bf174]
  ++ [0xe49b69c1, 0xefbe4786, 0x0fc19dc6, 0x240ca1cc]
  ++ [0x2de92c6f, 0x4a7484aa, 0x5cb0a9dc, 0x76f988da]
  ++ [0x983e5152, 0xa831c66d, 0xb00327c8, 0xbf597fc7]
  ++ [0xc6e00bf3, 0xd5a79147, 0x06ca6351, 0x14292967]
  ++ [0x27b70a85, 0x2e1b2138, 0x4d2c6dfc, 0x53380d13]
  ++ [0x650a7354, 0x766a0abb, 0x81c2c92e, 0x92722c85]
  ++ [0xa2bfe8a1, 0xa81a664b, 0xc24b8b70, 0xc76c51a3]
  ++ [0xd192e819, 0xd6990624, 0xf40e3585, 0x106aa070]
  ++ [0x19a4c116, 0x1e376c08, 0x2748774c, 0x34b0bcb5]
  ++ [0x391c0cb3, 0x4ed8aa4a, 0x5b9cca4f, 0x682e6ff3]
  ++ [0x748f82ee, 0x78a5636f, 0x84c87814, 0x8cc70208]
  ++ [0x90befffa, 0xa4506ceb, 0xbef9a3f7, 0xc67178f2]

/-- `K[t]` (R172). -/
def sha256K (t : Nat) : Word := sha256Table.getD t 0

/-- `Ch(x, y, z)` (R173). -/
def sha256Ch (x y z : Word) : Word := (x &&& y) ^^^ (~~~x &&& z)

/-- `Maj(x, y, z)` (R173). -/
def sha256Maj (x y z : Word) : Word := (x &&& y) ^^^ (x &&& z) ^^^ (y &&& z)

/-- `Σ0` (R173). -/
def bigSigma0 (x : Word) : Word := rotr32 x 2 ^^^ rotr32 x 13 ^^^ rotr32 x 22

/-- `Σ1` (R173). -/
def bigSigma1 (x : Word) : Word := rotr32 x 6 ^^^ rotr32 x 11 ^^^ rotr32 x 25

/-- `σ0` (R173): the third term is a shift. -/
def smallSigma0 (x : Word) : Word := rotr32 x 7 ^^^ rotr32 x 18 ^^^ shr32 x 3

/-- `σ1` (R173): the third term is a shift. -/
def smallSigma1 (x : Word) : Word := rotr32 x 17 ^^^ rotr32 x 19 ^^^ shr32 x 10

/-- `W[j] = σ1(W[j-2]) + W[j-7] + σ0(W[j-15]) + W[j-16]` (R174). -/
def sha256Next (ws : List Word) : Word :=
  smallSigma1 (wordBack ws 2) + wordBack ws 7 + smallSigma0 (wordBack ws 15) + wordBack ws 16

/-- The 64-word message schedule of a block (R174). -/
def sha256Schedule (block : List Byte) : List Word := extendSchedule sha256Next 48 (blockWords beVal block)

/-- `T1` of step `t` (R175). -/
def sha256T1 (t : Nat) (w : Word) (v : Sha256State) : Word :=
  v.h + bigSigma1 v.e + sha256Ch v.e v.f v.g + sha256K t + w

/-- `T2` of a step (R175). -/
def sha256T2 (v : Sha256State) : Word := bigSigma0 v.a + sha256Maj v.a v.b v.c

/-- Step `t` on the working variables, with `W[t] = w` (R175): all from the values before the step. -/
def sha256Step (t : Nat) (w : Word) (v : Sha256State) : Sha256State where
  a := sha256T1 t w v + sha256T2 v
  b := v.a
  c := v.b
  d := v.c
  e := v.d + sha256T1 t w v
  f := v.e
  g := v.f
  h := v.g

/-- The working variables after the first `n` steps (R175). -/
def sha256Steps (ws : List Word) (v : Sha256State) : Nat → Sha256State
  | 0 => v
  | t + 1 => sha256Step t (ws.getD t 0) (sha256Steps ws v t)

/-- State update (R176): word by word mod 2^32. -/
def sha256Add (h v : Sha256State) : Sha256State :=
  ⟨h.a + v.a, h.b + v.b, h.c + v.c, h.d + v.d, h.e + v.e, h.f + v.f, h.g + v.g, h.h + v.h⟩

/-- `compress_sha256(H, block)` (R174 to R176). -/
def sha256Compress (h : Sha256State) (block : List Byte) : Sha256State :=
  sha256Add h (sha256Steps (sha256Schedule block) h 64)

/-- `serialise_sha256(H)` (R177). -/
def sha256Serialise (h : Sha256State) : List Byte :=
  beBytes h.a.toNat 4 ++ beBytes h.b.toNat 4 ++ beBytes h.c.toNat 4 ++ beBytes h.d.toNat 4
  ++ beBytes h.e.toNat 4 ++ beBytes h.f.toNat 4 ++ beBytes h.g.toNat 4 ++ beBytes h.h.toNat 4

/-- The whole function (R177). -/
def sha256Hash (msg : List Byte) : List Byte := sha256Serialise (chain sha256Iv sha256Compress (pad beBytes msg))

/-- `SHA256` (R170): `DigestCmd(sha256, 32)`. -/
def execSha256 (s : State) : Host.Outcome State Fault Refusal := digestCmd sha256Hash 32 s

end Sys2Proof.Machine
end

