-- ==== Sys2Proof/Machine/Uuid.lean ====
section
/-! DEFINITION. The UUID version-4 formatter (46_uuid.md): UUID4. -/

namespace Sys2Proof.Machine

/-- `(y AND 0x0F) OR 0x40`: the high nibble becomes 0100 (R211). -/
def forceVersion (y : Byte) : Byte := (y &&& 0x0F#8) ||| 0x40#8

/-- `(y AND 0x3F) OR 0x80`: the top two bits become 10 (R211). -/
def forceVariant (y : Byte) : Byte := (y &&& 0x3F#8) ||| 0x80#8

/-- `force(r)` (R211): bytes 6 and 8, numbered from 0. -/
def uuidForce (r : List Byte) : List Byte :=
  (r.set 6 (forceVersion (r.getD 6 0))).set 8 (forceVariant (r.getD 8 0))

/-- `digit(n)`: the ASCII code of a lowercase hexadecimal digit (R212). -/
def hexDigit (n : Nat) : Byte := if n < 10 then BitVec.ofNat 8 (0x30 + n) else BitVec.ofNat 8 (0x61 + (n - 10))

/-- `hex(y)`: two characters, high nibble first (R212). -/
def hexByte (y : Byte) : List Byte := [hexDigit (y.toNat / 16), hexDigit (y.toNat % 16)]

/-- The characters of the bytes `u[i..j)`. -/
def hexGroup (u : List Byte) (i j : Nat) : List Byte := ((u.drop i).take (j - i)).flatMap hexByte

/-- The hyphen (R212). -/
def hyphen : Byte := 0x2D#8

/-- `render(u)`: the canonical 8-4-4-4-12 form, 36 characters (R212). -/
def uuidRender (u : List Byte) : List Byte :=
  hexGroup u 0 4 ++ [hyphen] ++ hexGroup u 4 6 ++ [hyphen] ++ hexGroup u 6 8 ++ [hyphen] ++ hexGroup u 8 10
  ++ [hyphen] ++ hexGroup u 10 16

/-- `UUID4` (R210). -/
def execUuid4 (s : State) : Host.Outcome State Fault Refusal :=
  checkSource 16 s <| checkDest 36 s <|
    withSource 16 s fun r => storeAndDone (uuidRender (uuidForce r)) 36 s

end Sys2Proof.Machine
end

