-- ==== Sys2Proof/Machine/Dispatch.lean ====
section
/-! DEFINITION. One arm per command (30_encoding R79). -/

namespace Sys2Proof.Machine

/-- What a command does (R79): a total function of the state before. -/
def exec (i : Instr) (s : State) : Host.Outcome State Fault Refusal :=
  match i with
  | .rduBe => Sys2Proof.Machine.execRduBe s
  | .rduLe => Sys2Proof.Machine.execRduLe s
  | .rdS64be => Sys2Proof.Machine.execRdS64be s
  | .rdU64be => Sys2Proof.Machine.execRdU64be s
  | .wrxLe => Sys2Proof.Machine.execWrxLe s
  | .wrS64be => Sys2Proof.Machine.execWrS64be s
  | .wrU64be => Sys2Proof.Machine.execWrU64be s
  | .md5 => Sys2Proof.Machine.execMd5 s
  | .sha1 => Sys2Proof.Machine.execSha1 s
  | .sha256 => Sys2Proof.Machine.execSha256 s
  | .uuid4 => Sys2Proof.Machine.execUuid4 s

end Sys2Proof.Machine
end

