-- ==== Sys2Proof/Machine/HostPort.lean ====
section
/-! DEFINITION. The host's moves (30_encoding R76, R77; 10_state R26, R34; 20_memory R63; 70_reset R250). Each runs
between commands, which is always (R76). -/

namespace Sys2Proof.Machine

/-! ## Which moves are moves (R76, 93 U8) -/

/-- The values `HWR r, v` admits for the register number `r` (R34, R76): 32 bits for `A`, `B`, `D`; a signed or unsigned
XW-bit value for `X`; any value, ignored, for `N` and `CAUSE` (log 7); a command word for `CMD` (log 5). -/
def hwrAllowed (p : Params) (r : Nat) (v : Int) : Bool :=
  match r with
  | 0 | 1 | 2 => decide (0 ≤ v) && decide (v < 2 ^ 32)
  | 3 | 5 => true
  | 4 => decide (-(2 ^ (p.xw - 1)) ≤ v) && decide (v < 2 ^ p.xw)
  | 6 => decide (0 ≤ v) && decide (v < 2 ^ 8)
  | _ => false

/-- A move the table of R76 allows. -/
def moveAllowed (p : Params) : HostMove → Bool
  | .hwr r v => hwrAllowed p r v
  | .hrd r => decide (r ≤ 6)
  | .hsb a v => decide (a < p.memSize) && decide (v < 256)
  | .hlb a => decide (a < p.memSize)
  | .cmd _ => true
  | .reset => true

/-! ## What a move does -/

/-- A host write of `c` to `CMD` (R26, R79): run the command of R71, or raise `IllegalCommand` (R73, R224). -/
def runCommand (c : Byte) (s : State) : Host.Outcome State Fault Refusal :=
  match decode c with
  | .ok i => exec i s
  | .error _ => raise .illegalCommand s

/-- `x[r]`, the pattern a host read gives (R34): `CMD` gives 0. -/
def readReg (r : Nat) (s : State) : Nat :=
  match r with
  | 0 => s.A.toNat
  | 1 => s.B.toNat
  | 2 => s.D.toNat
  | 3 => s.N.toNat
  | 4 => s.X.toNat
  | 5 => s.cause.toNat
  | _ => 0

/-- `HWR r, v` for an allowed `v` (R34, R76): stored as the pattern `v mod 2^width`; `N` and `CAUSE` ignore it. -/
def writeReg (r : Nat) (v : Int) (s : State) : Host.Outcome State Fault Refusal :=
  match r with
  | 0 => .next { s with A := BitVec.ofInt 32 v }
  | 1 => .next { s with B := BitVec.ofInt 32 v }
  | 2 => .next { s with D := BitVec.ofInt 32 v }
  | 4 => .next { s with X := BitVec.ofInt s.params.xw v }
  | 6 => runCommand (BitVec.ofInt 8 v) s
  | _ => .next s

/-- Deliver a value to the host; nothing else changes (R54: no read has a side effect). -/
def reply (v : Nat) (s : State) : Host.Outcome State Fault Refusal := .next { s with replies := s.replies ++ [v] }

/-- `HLB a` (R63, R76); a byte nothing has written holds no value (93 U1, log 3). -/
def loadByte (a : Nat) (s : State) : Host.Outcome State Fault Refusal :=
  match memByte s.mem a with
  | some y => reply y.toNat s
  | none => .fault .unwrittenByte

/-- `RESET` (R35, R250): `CAUSE <- 0`, no byte of `M` holds a value any more, and `A`, `B`, `D`, `N`, `X` become FREE
VALUES, fresh at every RESET (log 4). -/
def resetMove (s : State) : State :=
  { s with
    A := Config.freeReg s.resets 0
    B := Config.freeReg s.resets 1
    D := Config.freeReg s.resets 2
    N := Config.freeReg s.resets 3
    X := Config.freeX s.params.xw s.resets
    cause := successCode
    mem := []
    resets := s.resets + 1 }

/-- One move of the host (R76): a move the table does not allow is refused. -/
def hostMove (m : HostMove) (s : State) : Host.Outcome State Fault Refusal :=
  if moveAllowed s.params m then
    match m with
    | .hwr r v => writeReg r v s
    | .hrd r => reply (readReg r s) s
    | .hsb a v => .next { s with mem := memPut s.mem a (BitVec.ofNat 8 v) }
    | .hlb a => loadByte a s
    | .cmd c => runCommand c s
    | .reset => .next (resetMove s)
  else .refused .moveNotAllowed

/-! ## Pseudo-instructions (R77) -/

/-- `CMD m` with a mnemonic (R76): the word of the command. -/
def commandMove (i : Instr) : HostMove := .cmd (encode i)

/-- `DIGEST name` (R77): "Any other algorithm name has no expansion". -/
def digestMoves (name : String) : Option (List HostMove) :=
  if name = "md5" then some [commandMove .md5]
  else if name = "sha1" then some [commandMove .sha1]
  else if name = "sha256" then some [commandMove .sha256]
  else none

/-- `HFILL a, b0 b1 ... bk` (R77). -/
def fillMoves (a : Nat) : List Nat → List HostMove
  | [] => []
  | v :: vs => .hsb a v :: fillMoves (a + 1) vs

/-- `HFILL a, "text"` (R77): the ASCII codes of the characters, in order. -/
def fillTextMoves (a : Nat) (text : String) : List HostMove := fillMoves a (text.toList.map Char.toNat)

end Sys2Proof.Machine
end

