-- ==== Sys2Proof/Machine/Step.lean ====
section
/-! DEFINITION. One step: the next move of the host's script, whole (20_memory R60: each event takes effect completely
before the next begins). QCH fetches nothing (10_state R27): commands run in the order the host writes `CMD`. -/

namespace Sys2Proof.Machine

/-- Take the first move off the script and make it. With no move left QCH is `Idle` and nothing changes (log 6). -/
def step (s : State) : Host.Outcome State Fault Refusal :=
  match s.script with
  | [] => .next s
  | m :: rest => hostMove m { s with script := rest }

/-- `s` with the host about to write the command word whose bits are `w`: the very next step runs it (log 6). -/
def State.withFetchWord (s : State) (nbits w : Nat) : State :=
  { s with script := .cmd (commandWordOf nbits w) :: s.script }

end Sys2Proof.Machine
end

