-- ==== Sys2Proof/Safety.lean ====
section
/-! DEFINITION. What a legal state, a safe run and a command's operands being ready are, in the terms the statements
use. -/

namespace Sys2Proof.Machine

/-- `CAUSE` holds a code QCH produces: 0 to 7 but 3 (10_state R25: "Values 8 to 255 are never produced"; R223). -/
def legalCause (c : Byte) : Bool := decide (c.toNat ≤ 7) && decide (c.toNat ≠ 3)

/-- The invariant of the state: `M` is in its canonical form, no byte lies at or past MEM_SIZE (R50), and `CAUSE` holds
a code QCH produces (R25). -/
abbrev State.Inv (s : State) : Prop :=
  Memory.wf s.mem = true ∧ memBelow s.params.memSize s.mem = true ∧ legalCause s.cause = true

/-- The operands of a range command are in order, and `M[A..B)` holds `bytes` (R91, R135, R252). -/
abbrev rangeReady (s : State) (bytes : List Byte) : Prop :=
  s.A.toNat ≤ s.B.toNat ∧ s.B.toNat ≤ s.params.memSize ∧ memRead s.mem s.A.toNat (s.B.toNat - s.A.toNat) = some bytes

/-- The read extent `[A, A+n)` fits, and holds `bytes` (R222, R252). -/
abbrev sourceReady (n : Nat) (s : State) (bytes : List Byte) : Prop :=
  s.A.toNat + n ≤ s.params.memSize ∧ memRead s.mem s.A.toNat n = some bytes

/-- The write extent `[D, D+n)` fits (R225). -/
abbrev destReady (n : Nat) (s : State) : Prop := s.D.toNat + n ≤ s.params.memSize

/-- Offset `a` lies in the extent `[start, start+len)`. -/
abbrev inExtent (start len a : Nat) : Prop := start ≤ a ∧ a < start + len

/-- The length of a command's read extent, which starts at `A` (20_memory R57). -/
def readLen (i : Instr) (s : State) : Nat :=
  match i with
  | .rduBe | .rduLe | .md5 | .sha1 | .sha256 => s.B.toNat - s.A.toNat
  | .rdS64be | .rdU64be => 8
  | .uuid4 => 16
  | .wrxLe | .wrS64be | .wrU64be => 0

/-- The length of a command's write extent on success, which starts at `D` (20_memory R57). -/
def writeLen (i : Instr) (s : State) : Nat :=
  match i with
  | .rduBe | .rduLe | .rdS64be | .rdU64be => 0
  | .wrxLe => extendedLen s.X.toNat
  | .wrS64be | .wrU64be => 8
  | .md5 => 16
  | .sha1 => 20
  | .sha256 => 32
  | .uuid4 => 36

/-- Memory `m` holds `out` at `d` and is `old` everywhere else: the effect of one `MemWrite` (00_scope R11). -/
def holdsAt (m old : Memory) (d : Nat) (out : List Byte) : Prop :=
  (∀ i, i < out.length → memByte m (d + i) = out[i]?) ∧ ∀ a, ¬ inExtent d out.length a → memByte m a = memByte old a

/-- The run of `k` steps from `s` ends in no stop: neither a fault nor a refusal. -/
def safeRun : Nat → State → Prop
  | 0, _ => True
  | k + 1, s => ∃ t, step s = .next t ∧ safeRun k t

end Sys2Proof.Machine
end

