-- ==== Sys2Proof/Certificates/Slice0/Obligations.lean ====
section
/-! DEFINITION. The statements for the provers, from the numbered rules of spec/. Each docstring names the rule or the
section it formalises. -/

open Sys2Proof Sys2Proof.Machine

/-! ## Encoding and dispatch -/

/-- R71: a word selects a command if and only if it equals the `word` column (all eight bits). -/
def Obligations.WordSelectsCommandIffInTable : Prop :=
  ∀ (c : Byte) (i : Instr), decode c = .ok i ↔
    (c, i) ∈ [(0b00010000#8, Instr.rduBe), (0b00010001#8, .rduLe), (0b00010010#8, .rdS64be), (0b00010011#8, .rdU64be),
      (0b00100000#8, .wrxLe), (0b00100010#8, .wrS64be), (0b00100011#8, .wrU64be), (0b00110000#8, .md5),
      (0b00110001#8, .sha1), (0b00110010#8, .sha256), (0b01000000#8, .uuid4)]

/-- 30_encoding sections 1 and 2: decode undoes encode for every command, and the fields of the word are `unit` in bits
7:4 and `fn` in bits 3:0. -/
def Obligations.DecodeUndoesEncode : Prop :=
  ∀ i : Instr, decode (encode i) = .ok i ∧ (encode i).extractLsb' 4 4 = i.unitField ∧
    (encode i).extractLsb' 0 4 = i.fnField

/-- R73, R224: each of the 245 reserved words, and no other, is refused by the decoder; written to `CMD` it changes
`CAUSE` to 4 and nothing else, whatever the state. -/
def Obligations.ReservedWordRaisesIllegalCommand : Prop :=
  (∀ c : Byte, decode c = .error (.reserved c) ↔
    (c.toNat ≤ 0x0F ∨ (0x14 ≤ c.toNat ∧ c.toNat ≤ 0x1F) ∨ c.toNat = 0x21 ∨ (0x24 ≤ c.toNat ∧ c.toNat ≤ 0x2F) ∨
      (0x33 ≤ c.toNat ∧ c.toNat ≤ 0x3F) ∨ 0x41 ≤ c.toNat)) ∧
  ((List.range 256).filter fun w => reservedWord (BitVec.ofNat 8 w)).length = 245 ∧
  ∀ (c : Byte) (s : State), reservedWord c = true → runCommand c s = .next { s with cause := 4#8 }

/-- 30_encoding section 5: a host write of a word of R71 to `CMD` runs that command's rule; any other word raises
IllegalCommand. The step takes the move off the script (log 6) and does nothing else around the command. -/
def Obligations.StepRunsDecodedCommand : Prop :=
  ∀ (s : State) (c : Byte) (rest : List HostMove), s.script = .cmd c :: rest →
    (∀ i, decode c = .ok i → step s = exec i { s with script := rest }) ∧
    (decode c = .error (.reserved c) → step s = .next { s with script := rest, cause := 4#8 })

/-- The model's own way of placing a command (log 6): after withFetchWord with the command's word the very next step is
exec of the command at the state itself; with no move left a step changes nothing. -/
def Obligations.FetchWordRunsNextAndEmptyScriptIdles : Prop :=
  (∀ (s : State) (i : Instr), step (s.withFetchWord 8 (encode i).toNat) = exec i s) ∧
  ∀ s : State, s.script = [] → step s = .next s

/-! ## Byte sequences, values and words -/

/-- R7: `be_val`, `le_val` are the sums of R7, and `be_bytes`, `le_bytes` the sequences of length `n` that have the
value. -/
def Obligations.ByteSequenceValuesAreSums : Prop :=
  ∀ s : List Byte,
    beVal s = ∑ i ∈ Finset.range s.length, (s.getD i 0).toNat * 256 ^ (s.length - 1 - i) ∧
    leVal s = ∑ i ∈ Finset.range s.length, (s.getD i 0).toNat * 256 ^ i ∧
    (∀ v n, v < 256 ^ n → ((s = beBytes v n ↔ s.length = n ∧ beVal s = v) ∧ (s = leBytes v n ↔ s.length = n ∧ leVal s = v)))

/-- R8: `bytelen(v)` is the least `k` with `v < 256^k`, and `sval`, `sext`, `zext` are the two's complement reading and
the patterns of R8. -/
def Obligations.FixedWidthValues : Prop :=
  (∀ v k : Nat, v < 256 ^ k ↔ byteLen v ≤ k) ∧
  (∀ (W p : Nat), 0 < W → p < 2 ^ W → sval W p = (BitVec.ofNat W p).toInt) ∧
  (∀ (W v : Nat), v < 2 ^ W → (zext W v).toNat = v) ∧
  ∀ (W : Nat) (v : Int), 0 < W → -(2 ^ (W - 1)) ≤ v → v < 2 ^ (W - 1) →
    (sext W v).toInt = v ∧ ((sext W v).toNat : Int) = v % 2 ^ W

/-- 00_scope section 4 (R9): the arithmetic for the word operations: modulo-2^32 addition, complement, and the rotations
and shift by a count strictly between 0 and 32. -/
def Obligations.WordOperationsFollowArithmetic : Prop :=
  (∀ a b : Word, (a + b).toNat = (a.toNat + b.toNat) % 2 ^ 32) ∧
  (∀ a : Word, (~~~a).toNat = 0xFFFFFFFF - a.toNat) ∧
  ∀ (a : Word) (n : Nat), 0 < n → n < 32 →
    (rotl32 a n).toNat = (a.toNat * 2 ^ n) % 2 ^ 32 + a.toNat / 2 ^ (32 - n) ∧
    rotr32 a n = rotl32 a (32 - n) ∧ rotl32 (rotr32 a n) n = a ∧ (shr32 a n).toNat = a.toNat / 2 ^ n

/-! ## Memory -/

/-- R11, with the reading of unwritten bytes of log 3: MemRead gives the bytes `M[a+i]` of the extent and answers
exactly when all of them hold a value (93 U1); MemWrite performs `M[a+i] <- s[i]` and changes no other byte; what is
written is read back. -/
def Obligations.MemoryPrimitives : Prop :=
  (∀ (m : Memory) (a n : Nat) (s : List Byte),
    memRead m a n = some s ↔ s.length = n ∧ ∀ i, i < n → memByte m (a + i) = s[i]?) ∧
  ∀ (m : Memory) (a : Nat) (s : List Byte),
    holdsAt (memWrite m a s) m a s ∧ memRead (memWrite m a s) a s.length = some s

/-- The canonical form of memory decides equality: two canonical memories that read alike at every offset are the same
list (a law of the model's representation, Memory.wf). -/
def Obligations.CanonicalMemoryIsItsContents : Prop :=
  ∀ m m' : Memory, Memory.wf m = true → Memory.wf m' = true → (∀ a, memByte m a = memByte m' a) → m = m'

/-! ## The codec readers -/

/-- R91: RDU_BE. The errors in the order checked, OrderFault, LengthError and PrecisionFault, each changing `CAUSE`
only; and, with the range in order, in `M` and written, and a value that fits, `X` takes the zero-extended big-endian
value, `CAUSE` 0, and nothing else changes. -/
def Obligations.RduBeLoadsBigEndianValue : Prop :=
  ∀ s : State,
    (s.B.toNat < s.A.toNat → exec .rduBe s = .next { s with cause := 7#8 }) ∧
    (s.A.toNat ≤ s.B.toNat → s.params.memSize < s.B.toNat → exec .rduBe s = .next { s with cause := 2#8 }) ∧
    ∀ bytes, rangeReady s bytes →
      (2 ^ s.params.xw ≤ beVal bytes → exec .rduBe s = .next { s with cause := 6#8 }) ∧
      (beVal bytes < 2 ^ s.params.xw →
        exec .rduBe s = .next { s with X := BitVec.ofNat s.params.xw (beVal bytes), cause := 0#8 })

/-- R92: RDU_LE. As RDU_BE with the little-endian value, the byte at `A` least significant. -/
def Obligations.RduLeLoadsLittleEndianValue : Prop :=
  ∀ s : State,
    (s.B.toNat < s.A.toNat → exec .rduLe s = .next { s with cause := 7#8 }) ∧
    (s.A.toNat ≤ s.B.toNat → s.params.memSize < s.B.toNat → exec .rduLe s = .next { s with cause := 2#8 }) ∧
    ∀ bytes, rangeReady s bytes →
      (2 ^ s.params.xw ≤ leVal bytes → exec .rduLe s = .next { s with cause := 6#8 }) ∧
      (leVal bytes < 2 ^ s.params.xw →
        exec .rduLe s = .next { s with X := BitVec.ofNat s.params.xw (leVal bytes), cause := 0#8 })

/-- R94: RD_S64BE. With 8 bytes between `A` and the end of `M`, all written, `X` takes the two's complement value
sign-extended to XW bits; with fewer it raises LengthError. -/
def Obligations.RdS64beLoadsSignExtended : Prop :=
  ∀ s : State,
    (∀ bytes, sourceReady 8 s bytes →
      exec .rdS64be s = .next { s with
        X := BitVec.ofInt s.params.xw (if beVal bytes < 2 ^ 63 then (beVal bytes : Int) else (beVal bytes : Int) - 2 ^ 64)
        cause := 0#8 }) ∧
    (s.params.memSize < s.A.toNat + 8 → exec .rdS64be s = .next { s with cause := 2#8 })

/-- R95: RD_U64BE. As RD_S64BE but unsigned: `X` takes the value zero-extended. -/
def Obligations.RdU64beLoadsZeroExtended : Prop :=
  ∀ s : State,
    (∀ bytes, sourceReady 8 s bytes →
      exec .rdU64be s = .next { s with X := BitVec.ofNat s.params.xw (beVal bytes), cause := 0#8 }) ∧
    (s.params.memSize < s.A.toNat + 8 → exec .rdU64be s = .next { s with cause := 2#8 })

/-- 40_codec_read section 1, the readers' frame: a reader changes `X` and `CAUSE` at most, and `X` only when it
succeeds; every byte of `M` reads as before. -/
def Obligations.ReadersChangeOnlyXAndCause : Prop :=
  ∀ (i : Instr) (s t : State), i ∈ [Instr.rduBe, .rduLe, .rdS64be, .rdU64be] → exec i s = .next t →
    t.params = s.params ∧ t.A = s.A ∧ t.B = s.B ∧ t.D = s.D ∧ t.N = s.N ∧ t.mem = s.mem ∧
    (∀ a, memByte t.mem a = memByte s.mem a) ∧ t.script = s.script ∧ t.replies = s.replies ∧ t.resets = s.resets ∧
    (t.cause ≠ 0#8 → t.X.toNat = s.X.toNat)

/-- 40_codec_read section 3, the mirror law on byte sequences and on the commands: RDU_BE of `b` and RDU_LE of `rev(b)`,
wherever they lie, end with the same `CAUSE` and, when they succeed, with the same `X`. -/
def Obligations.MirrorLaw : Prop :=
  (∀ b : List Byte, beVal b = leVal b.reverse) ∧
  ∀ (s s' : State) (b : List Byte), s'.params = s.params → rangeReady s b → rangeReady s' b.reverse →
    ∃ t t', exec .rduBe s = .next t ∧ exec .rduLe s' = .next t' ∧ t'.cause = t.cause ∧
      (t.cause = 0#8 ∨ t.cause = 6#8) ∧ (t.cause = 0#8 → t'.X.toNat = t.X.toNat)

/-- 40_codec_read sections 5 and 7: on the same 8 bytes RD_U64BE and RDU_BE with `B = A + 8` give the same `X`, and
RD_S64BE the same bits 63:0. -/
def Obligations.FixedAndRangeReadersAgree : Prop :=
  ∀ (s : State) (bytes : List Byte), sourceReady 8 s bytes → s.B.toNat = s.A.toNat + 8 →
    exec .rdU64be s = exec .rduBe s ∧
    ∃ t t', exec .rdU64be s = .next t ∧ exec .rdS64be s = .next t' ∧
      t.X.toNat = beVal bytes ∧ t'.X.toNat % 2 ^ 64 = t.X.toNat ∧
      (beVal bytes < 2 ^ 63 → t'.X.toNat = t.X.toNat)

/-! ## The codec writers -/

/-- R111, success and error: WRX_LE writes the `n = max(8, bytelen(v))` little-endian digits of the unsigned value of
`X` at `D`, with `N <- n`; when they do not fit it raises BoundsFault. `k` is any number with R8's property of
`bytelen(v)`. -/
def Obligations.WrxLeWritesDigits : Prop :=
  ∀ (s : State) (k : Nat), s.X.toNat < 256 ^ k → (∀ j, j < k → 256 ^ j ≤ s.X.toNat) →
    (s.D.toNat + max 8 k ≤ s.params.memSize →
      ∃ t, exec .wrxLe s = .next t ∧
        t = { s with mem := t.mem, N := BitVec.ofNat 32 (max 8 k), cause := 0#8 } ∧
        (∀ i, i < max 8 k → memByte t.mem (s.D.toNat + i) = some (BitVec.ofNat 8 (s.X.toNat / 256 ^ i))) ∧
        ∀ a, ¬ inExtent s.D.toNat (max 8 k) a → memByte t.mem a = memByte s.mem a) ∧
    (s.params.memSize < s.D.toNat + max 8 k → exec .wrxLe s = .next { s with cause := 5#8 })

/-- R112: WR_S64BE. A value of `X`, read signed, outside `[-2^63, 2^63-1]` raises RangeError whatever `D` holds; then
BoundsFault when 8 bytes do not fit at `D`; else `M[D] = X[63:56]` to `M[D+7] = X[7:0]`, `N <- D + 8`, and nothing else
changes. -/
def Obligations.WrS64beWritesBigEndian : Prop :=
  ∀ s : State,
    (s.X.toInt < -(2 ^ 63) ∨ 2 ^ 63 - 1 < s.X.toInt → exec .wrS64be s = .next { s with cause := 1#8 }) ∧
    (-(2 ^ 63) ≤ s.X.toInt → s.X.toInt ≤ 2 ^ 63 - 1 →
      (s.params.memSize < s.D.toNat + 8 → exec .wrS64be s = .next { s with cause := 5#8 }) ∧
      (destReady 8 s →
        ∃ t, exec .wrS64be s = .next t ∧
          t = { s with mem := t.mem, N := BitVec.ofNat 32 (s.D.toNat + 8), cause := 0#8 } ∧
          (∀ i, i < 8 → memByte t.mem (s.D.toNat + i) = some (s.X.extractLsb' (56 - 8 * i) 8)) ∧
          ∀ a, ¬ inExtent s.D.toNat 8 a → memByte t.mem a = memByte s.mem a))

/-- R113: WR_U64BE. A value of `X`, read signed, outside `[0, 2^64-1]` raises RangeError whatever `D` holds; then
BoundsFault when 8 bytes do not fit at `D`; else `M[D] = X[63:56]` to `M[D+7] = X[7:0]`, `N <- D + 8`, and nothing else
changes. -/
def Obligations.WrU64beWritesBigEndian : Prop :=
  ∀ s : State,
    (s.X.toInt < 0 ∨ 2 ^ 64 - 1 < s.X.toInt → exec .wrU64be s = .next { s with cause := 1#8 }) ∧
    (0 ≤ s.X.toInt → s.X.toInt ≤ 2 ^ 64 - 1 →
      (s.params.memSize < s.D.toNat + 8 → exec .wrU64be s = .next { s with cause := 5#8 }) ∧
      (destReady 8 s →
        ∃ t, exec .wrU64be s = .next t ∧
          t = { s with mem := t.mem, N := BitVec.ofNat 32 (s.D.toNat + 8), cause := 0#8 } ∧
          (∀ i, i < 8 → memByte t.mem (s.D.toNat + i) = some (s.X.extractLsb' (56 - 8 * i) 8)) ∧
          ∀ a, ¬ inExtent s.D.toNat 8 a → memByte t.mem a = memByte s.mem a))

/-- R114: the validator. `signed_ok` says bits XW-1..63 are all equal, `unsigned_ok` that bits XW-1..64 are all zero;
they hold exactly for the values in the two ranges; the writers raise RangeError iff they fail. -/
def Obligations.ValidatorIsTheRangeCheck : Prop :=
  (∀ (W : Nat) (p : BitVec W), 72 ≤ W →
    (signedOk W p = true ↔ ∀ j, 63 ≤ j → j < W → p.getLsbD j = p.getLsbD 63) ∧
    (unsignedOk W p = true ↔ ∀ j, 64 ≤ j → j < W → p.getLsbD j = false) ∧
    (signedOk W p = true ↔ -(2 ^ 63) ≤ p.toInt ∧ p.toInt ≤ 2 ^ 63 - 1) ∧
    (unsignedOk W p = true ↔ 0 ≤ p.toInt ∧ p.toInt ≤ 2 ^ 64 - 1) ∧
    (unsignedOk W p = true ↔ p.toNat ≤ 2 ^ 64 - 1)) ∧
  ∀ s : State,
    ((∃ t, exec .wrS64be s = .next t ∧ t.cause = 1#8) ↔ signedOk s.params.xw s.X = false) ∧
    ((∃ t, exec .wrU64be s = .next t ∧ t.cause = 1#8) ↔ unsignedOk s.params.xw s.X = false)

/-- The frame of the seven commands that write `M` (20_memory section 2, 10_state section 2, 30_encoding section 3):
they change `M[D..D+n)`, `N` and `CAUSE` at most, never `A`, `B`, `D` or `X`, and nothing but `CAUSE` when they fail.
`n` is the command's write length, for WRX_LE `max(8, bytelen(X))`. -/
def Obligations.WritingCommandsFrame : Prop :=
  ∀ (i : Instr) (n : Nat) (s t : State),
    (i, n) ∈ [(Instr.wrxLe, max 8 (byteLen s.X.toNat)), (.wrS64be, 8), (.wrU64be, 8), (.md5, 16), (.sha1, 20),
      (.sha256, 32), (.uuid4, 36)] →
    exec i s = .next t →
      t.params = s.params ∧ t.A = s.A ∧ t.B = s.B ∧ t.D = s.D ∧ t.X.toNat = s.X.toNat ∧ t.script = s.script ∧
      t.replies = s.replies ∧ t.resets = s.resets ∧ (t.cause ≠ 0#8 → t = { s with cause := t.cause }) ∧
      ∀ a, ¬ inExtent s.D.toNat n a → memByte t.mem a = memByte s.mem a

/-- 41_codec_write section 6, the source's round trip: for every `v` in `[-2^63, 2^63-1]`, HWR X v; HWR D d; WR_S64BE;
HWR A d; RD_S64BE leaves `sval(X) = v` and `CAUSE = 0`. -/
def Obligations.SignedRoundTrip : Prop :=
  ∀ (s : State) (v : Int) (d : Word), -(2 ^ 63) ≤ v → v ≤ 2 ^ 63 - 1 → d.toNat + 8 ≤ s.params.memSize →
    ∃ t u, exec .wrS64be { s with X := BitVec.ofInt s.params.xw v, D := d } = .next t ∧
      exec .rdS64be { t with A := d } = .next u ∧ u.X.toInt = v ∧ u.cause = 0#8

/-- 41_codec_write section 6: WR_U64BE then RD_U64BE, for every `v` in `[0, 2^64-1]`. -/
def Obligations.UnsignedRoundTrip : Prop :=
  ∀ (s : State) (v : Nat) (d : Word), v ≤ 2 ^ 64 - 1 → d.toNat + 8 ≤ s.params.memSize →
    ∃ t u, exec .wrU64be { s with X := BitVec.ofNat s.params.xw v, D := d } = .next t ∧
      exec .rdU64be { t with A := d } = .next u ∧ u.X.toNat = v ∧ u.cause = 0#8

/-- 41_codec_write section 6: WRX_LE then RDU_LE on `[D, D+N)`, for every content of `X`. -/
def Obligations.ExtendedRoundTrip : Prop :=
  ∀ s : State, s.D.toNat + max 8 (byteLen s.X.toNat) ≤ s.params.memSize →
    ∃ t u, exec .wrxLe s = .next t ∧ exec .rduLe { t with A := s.D, B := s.D + t.N } = .next u ∧
      u.X.toNat = s.X.toNat ∧ u.cause = 0#8

/-- 41_codec_write section 6: WR_S64BE and WR_U64BE do the same to every value both accept; the first 8 bytes WRX_LE
writes are the reverse of what WR_U64BE writes. -/
def Obligations.WritersAgree : Prop :=
  ∀ s : State, destReady 8 s →
    (0 ≤ s.X.toInt → s.X.toInt ≤ 2 ^ 63 - 1 → exec .wrS64be s = exec .wrU64be s) ∧
    (s.X.toNat ≤ 2 ^ 64 - 1 → ∃ t u, exec .wrU64be s = .next t ∧ exec .wrxLe s = .next u ∧
      ∀ i, i < 8 → memByte u.mem (s.D.toNat + i) = memByte t.mem (s.D.toNat + (7 - i)))

/-! ## The hash commands -/

/-- R135, for MD5, SHA1 and SHA256 with digest lengths 16, 20 and 32: the errors in the order checked, and on success
the digest of `M[A..B)` at `D`, `N <- dl`, `CAUSE` 0, and no other change. The input is read as it is when the command
starts, so the extents may overlap. -/
def Obligations.DigestCommandTemplate : Prop :=
  ∀ (i : Instr) (hash : List Byte → List Byte) (dl : Nat),
    (i = .md5 ∧ hash = md5Hash ∧ dl = 16) ∨ (i = .sha1 ∧ hash = sha1Hash ∧ dl = 20) ∨
      (i = .sha256 ∧ hash = sha256Hash ∧ dl = 32) →
    ∀ s : State,
      (s.B.toNat < s.A.toNat → exec i s = .next { s with cause := 7#8 }) ∧
      (s.A.toNat ≤ s.B.toNat → s.params.memSize < s.B.toNat → exec i s = .next { s with cause := 2#8 }) ∧
      (s.A.toNat ≤ s.B.toNat → s.B.toNat ≤ s.params.memSize → s.params.memSize < s.D.toNat + dl →
        exec i s = .next { s with cause := 5#8 }) ∧
      ∀ msg, rangeReady s msg → destReady dl s →
        (hash msg).length = dl ∧
        ∃ t, exec i s = .next t ∧ t = { s with mem := t.mem, N := BitVec.ofNat 32 dl, cause := 0#8 } ∧
          holdsAt t.mem s.mem s.D.toNat (hash msg)

/-- 20_memory section 2 (R58's overlap): where the output goes has no part in what it is: two runs that differ only in
`D` write the same bytes, so a digest or string written over its own input is the one that would have been written
elsewhere. -/
def Obligations.OverlapDoesNotMatter : Prop :=
  ∀ (i : Instr) (n : Nat) (s t u : State) (d : Word),
    (i, n) ∈ [(Instr.md5, 16), (.sha1, 20), (.sha256, 32), (.uuid4, 36)] →
    exec i s = .next t → t.cause = 0#8 → exec i { s with D := d } = .next u → u.cause = 0#8 →
      ∀ j, j < n → memByte u.mem (d.toNat + j) = memByte t.mem (s.D.toNat + j)

/-- 42_hash_common section 2: the padding. The message, `0x80`, the least number of zero bytes that brings the length to
56 mod 64, and the bit length as 8 bytes in the engine's byte order. -/
def Obligations.PaddingShape : Prop :=
  ∀ msg : List Byte, 8 * msg.length < 2 ^ 64 → ∃ k, k ≤ 63 ∧ (msg.length + 1 + k + 8) % 64 = 0 ∧
    (∀ j, j < k → (msg.length + 1 + j + 8) % 64 ≠ 0) ∧
    (∃ f, f.length = 8 ∧ beVal f = 8 * msg.length ∧ pad beBytes msg = msg ++ [0x80#8] ++ List.replicate k 0#8 ++ f) ∧
    ∃ f, f.length = 8 ∧ leVal f = 8 * msg.length ∧ pad leBytes msg = msg ++ [0x80#8] ++ List.replicate k 0#8 ++ f

/-- 42_hash_common section 2: the padded message is `nb = floor((L + 8) / 64) + 1` blocks of 64 bytes, which joined give
it back. -/
def Obligations.BlockCount : Prop :=
  ∀ (lenBytes : Nat → Nat → List Byte) (msg : List Byte), lenBytes = beBytes ∨ lenBytes = leBytes →
    (pad lenBytes msg).length = 64 * ((msg.length + 8) / 64 + 1) ∧
    (blocksOf (pad lenBytes msg)).length = (msg.length + 8) / 64 + 1 ∧
    (∀ b ∈ blocksOf (pad lenBytes msg), b.length = 64) ∧ (blocksOf (pad lenBytes msg)).flatten = pad lenBytes msg

/-- R134: chaining, for each engine: `H_0 = IV`, `H_(i+1) = compress(H_i, block_i)` with `block_i` the bytes 64i to
64i+63 of the padded message, and the digest is the serialised last state. Each compression is the steps of its engine
in order from the state it started from (43_sha1, 44_sha256 and 45_md5, section 3): `V 0 = H`, `V (t+1)` is step `t` of
`V t` on the word `W[t]` (MD5: `Xw[g(t)]`), for 80, 64 and 64 steps, and ends by adding that state to the working
variables. -/
def Obligations.ChainingIsSequential : Prop :=
  (∀ msg : List Byte,
    (∃ H : Nat → Md5State, H 0 = md5Iv ∧
      (∀ i, i < (msg.length + 8) / 64 + 1 → H (i + 1) = md5Compress (H i) (((pad leBytes msg).drop (64 * i)).take 64)) ∧
      md5Hash msg = md5Serialise (H ((msg.length + 8) / 64 + 1))) ∧
    (∃ H : Nat → Sha1State, H 0 = sha1Iv ∧
      (∀ i, i < (msg.length + 8) / 64 + 1 → H (i + 1) = sha1Compress (H i) (((pad beBytes msg).drop (64 * i)).take 64)) ∧
      sha1Hash msg = sha1Serialise (H ((msg.length + 8) / 64 + 1))) ∧
    ∃ H : Nat → Sha256State, H 0 = sha256Iv ∧
      (∀ i, i < (msg.length + 8) / 64 + 1 →
        H (i + 1) = sha256Compress (H i) (((pad beBytes msg).drop (64 * i)).take 64)) ∧
      sha256Hash msg = sha256Serialise (H ((msg.length + 8) / 64 + 1))) ∧
  ∀ (block : List Byte),
    (∀ h : Md5State, ∃ V : Nat → Md5State, V 0 = h ∧
      (∀ t, t < 64 → V (t + 1) = md5Step t ((blockWords leVal block).getD (md5Index t) 0) (V t)) ∧
      V 64 = md5Steps (blockWords leVal block) h 64 ∧
      md5Compress h block = ⟨h.a + (V 64).a, h.b + (V 64).b, h.c + (V 64).c, h.d + (V 64).d⟩) ∧
    (∀ h : Sha1State, ∃ V : Nat → Sha1State, V 0 = h ∧
      (∀ t, t < 80 → V (t + 1) = sha1Step t ((sha1Schedule block).getD t 0) (V t)) ∧
      V 80 = sha1Steps (sha1Schedule block) h 80 ∧
      sha1Compress h block =
        ⟨h.a + (V 80).a, h.b + (V 80).b, h.c + (V 80).c, h.d + (V 80).d, h.e + (V 80).e⟩) ∧
    ∀ h : Sha256State, ∃ V : Nat → Sha256State, V 0 = h ∧
      (∀ t, t < 64 → V (t + 1) = sha256Step t ((sha256Schedule block).getD t 0) (V t)) ∧
      V 64 = sha256Steps (sha256Schedule block) h 64 ∧
      sha256Compress h block =
        ⟨h.a + (V 64).a, h.b + (V 64).b, h.c + (V 64).c, h.d + (V 64).d, h.e + (V 64).e, h.f + (V 64).f,
          h.g + (V 64).g, h.h + (V 64).h⟩

/-- R152: SHA-1's schedule is 80 words, the first 16 the block's big-endian words, the others the rotated xor. -/
def Obligations.Sha1ScheduleRecurrence : Prop :=
  ∀ block : List Byte, block.length = 64 →
    (sha1Schedule block).length = 80 ∧
    (∀ j, j < 16 → ((sha1Schedule block).getD j 0).toNat = beVal ((block.drop (4 * j)).take 4)) ∧
    ∀ j, 16 ≤ j → j < 80 → (sha1Schedule block).getD j 0 =
      ((sha1Schedule block).getD (j - 3) 0 ^^^ (sha1Schedule block).getD (j - 8) 0 ^^^
        (sha1Schedule block).getD (j - 14) 0 ^^^ (sha1Schedule block).getD (j - 16) 0).rotateLeft 1

/-- 44_sha256 section 3: SHA-256's schedule is 64 words, with the recurrence of its σ functions (the rotations written
here as rotateRight, the third terms as logical shifts). -/
def Obligations.Sha256ScheduleRecurrence : Prop :=
  ∀ block : List Byte, block.length = 64 →
    (sha256Schedule block).length = 64 ∧
    (∀ j, j < 16 → ((sha256Schedule block).getD j 0).toNat = beVal ((block.drop (4 * j)).take 4)) ∧
    ∀ j, 16 ≤ j → j < 64 →
      ∀ w2 w7 w15 w16, w2 = (sha256Schedule block).getD (j - 2) 0 → w7 = (sha256Schedule block).getD (j - 7) 0 →
        w15 = (sha256Schedule block).getD (j - 15) 0 → w16 = (sha256Schedule block).getD (j - 16) 0 →
        (sha256Schedule block).getD j 0 =
          (w2.rotateRight 17 ^^^ w2.rotateRight 19 ^^^ (w2 >>> 10)) + w7 +
          (w15.rotateRight 7 ^^^ w15.rotateRight 18 ^^^ (w15 >>> 3)) + w16

/-- 43_sha1 sections 2 and 3: one SHA-1 step, in integers mod 2^32, with the function and the constant of its range. -/
def Obligations.Sha1StepArithmetic : Prop :=
  ∀ (t : Nat) (w : Word) (v : Sha1State), t < 80 →
    ∃ f k : Nat,
      ((t < 20 ∧ f = ((v.b &&& v.c) ||| (~~~v.b &&& v.d)).toNat ∧ k = 0x5A827999) ∨
        (20 ≤ t ∧ t < 40 ∧ f = (v.b ^^^ v.c ^^^ v.d).toNat ∧ k = 0x6ED9EBA1) ∨
        (40 ≤ t ∧ t < 60 ∧ f = ((v.b &&& v.c) ||| (v.b &&& v.d) ||| (v.c &&& v.d)).toNat ∧ k = 0x8F1BBCDC) ∨
        (60 ≤ t ∧ f = (v.b ^^^ v.c ^^^ v.d).toNat ∧ k = 0xCA62C1D6)) ∧
      (sha1Step t w v).a.toNat = ((v.a.rotateLeft 5).toNat + f + v.e.toNat + k + w.toNat) % 2 ^ 32 ∧
      (sha1Step t w v).b = v.a ∧ (sha1Step t w v).c = v.b.rotateLeft 30 ∧ (sha1Step t w v).d = v.c ∧
      (sha1Step t w v).e = v.d

/-- 44_sha256 sections 2 and 3: one SHA-256 step, with Σ0, Σ1, Ch and Maj written out. -/
def Obligations.Sha256StepArithmetic : Prop :=
  ∀ (t : Nat) (w : Word) (v : Sha256State) (t1 t2 : Word),
    t1 = v.h + (v.e.rotateRight 6 ^^^ v.e.rotateRight 11 ^^^ v.e.rotateRight 25) + ((v.e &&& v.f) ^^^ (~~~v.e &&& v.g)) +
      sha256Table.getD t 0 + w →
    t2 = (v.a.rotateRight 2 ^^^ v.a.rotateRight 13 ^^^ v.a.rotateRight 22) +
      ((v.a &&& v.b) ^^^ (v.a &&& v.c) ^^^ (v.b &&& v.c)) →
    sha256Step t w v = ⟨t1 + t2, v.a, v.b, v.c, v.d + t1, v.e, v.f, v.g⟩

/-- 45_md5 sections 2 and 3: one MD5 step with the function of its round, and the rotation amounts and message-word
indices as R193 and R194 list them; and MD5's message words (42_hash_common section 1, R191): the 16 little-endian words
of a block. -/
def Obligations.Md5StepAndPermutation : Prop :=
  (∀ (t : Nat) (w : Word) (v : Md5State), t < 64 →
    ∃ f : Word,
      ((t < 16 ∧ f = ((v.b &&& v.c) ||| (~~~v.b &&& v.d))) ∨ (16 ≤ t ∧ t < 32 ∧ f = ((v.b &&& v.d) ||| (v.c &&& ~~~v.d))) ∨
        (32 ≤ t ∧ t < 48 ∧ f = (v.b ^^^ v.c ^^^ v.d)) ∨ (48 ≤ t ∧ f = (v.c ^^^ (v.b ||| ~~~v.d)))) ∧
      md5Step t w v = ⟨v.d, v.b + (v.a + f + w + md5Table.getD t 0).rotateLeft (md5Shift t), v.b, v.c⟩) ∧
  (List.range 64).map md5Shift =
    [7, 12, 17, 22, 7, 12, 17, 22, 7, 12, 17, 22, 7, 12, 17, 22] ++ [5, 9, 14, 20, 5, 9, 14, 20, 5, 9, 14, 20, 5, 9, 14, 20]
    ++ [4, 11, 16, 23, 4, 11, 16, 23, 4, 11, 16, 23, 4, 11, 16, 23]
    ++ [6, 10, 15, 21, 6, 10, 15, 21, 6, 10, 15, 21, 6, 10, 15, 21] ∧
  (List.range 64).map md5Index =
    [0, 1, 2, 3, 4, 5, 6, 7, 8, 9, 10, 11, 12, 13, 14, 15] ++ [1, 6, 11, 0, 5, 10, 15, 4, 9, 14, 3, 8, 13, 2, 7, 12]
    ++ [5, 8, 11, 14, 1, 4, 7, 10, 13, 0, 3, 6, 9, 12, 15, 2] ++ [0, 7, 14, 5, 12, 3, 10, 1, 8, 15, 6, 13, 4, 11, 2, 9] ∧
  ∀ block : List Byte, block.length = 64 → (blockWords leVal block).length = 16 ∧
    ∀ j, j < 16 → ((blockWords leVal block).getD j 0).toNat = leVal ((block.drop (4 * j)).take 4)

/-- 95_test_vectors S1, S2, S3: the three digests the source prints. -/
def Obligations.SourceDigestVectors : Prop :=
  (sha1Hash []).map BitVec.toNat =
    [0xDA, 0x39, 0xA3, 0xEE, 0x5E, 0x6B, 0x4B, 0x0D, 0x32, 0x55, 0xBF, 0xEF, 0x95, 0x60, 0x18, 0x90, 0xAF, 0xD8, 0x07, 0x09] ∧
  (sha256Hash [0x61#8, 0x62#8, 0x63#8]).map BitVec.toNat =
    [0xBA, 0x78, 0x16, 0xBF, 0x8F, 0x01, 0xCF, 0xEA, 0x41, 0x41, 0x40, 0xDE, 0x5D, 0xAE, 0x22, 0x23,
      0xB0, 0x03, 0x61, 0xA3, 0x96, 0x17, 0x7A, 0x9C, 0xB4, 0x10, 0xFF, 0x61, 0xF2, 0x00, 0x15, 0xAD] ∧
  (md5Hash []).map BitVec.toNat =
    [0xD4, 0x1D, 0x8C, 0xD9, 0x8F, 0x00, 0xB2, 0x04, 0xE9, 0x80, 0x09, 0x98, 0xEC, 0xF8, 0x42, 0x7E]

/-! ## UUID4 -/

/-- R210: UUID4, its errors in the order checked and its success: the 36 characters of the 16 bytes with version and
variant forced at `D`, `N <- 36`, `CAUSE` 0, no other change. -/
def Obligations.Uuid4WritesString : Prop :=
  ∀ s : State,
    (s.params.memSize < s.A.toNat + 16 → exec .uuid4 s = .next { s with cause := 2#8 }) ∧
    (s.A.toNat + 16 ≤ s.params.memSize → s.params.memSize < s.D.toNat + 36 → exec .uuid4 s = .next { s with cause := 5#8 }) ∧
    ∀ r, sourceReady 16 s r → destReady 36 s →
      (uuidRender (uuidForce r)).length = 36 ∧
      ∃ t, exec .uuid4 s = .next t ∧ t = { s with mem := t.mem, N := 36#32, cause := 0#8 } ∧
        holdsAt t.mem s.mem s.D.toNat (uuidRender (uuidForce r))

/-- R211: `force(r)` keeps every byte but 6 and 8, whose high nibble and top two bits it sets. -/
def Obligations.ForceSetsVersionAndVariant : Prop :=
  ∀ r : List Byte, r.length = 16 →
    (uuidForce r).length = 16 ∧ (∀ i, i < 16 → i ≠ 6 → i ≠ 8 → (uuidForce r).getD i 0 = r.getD i 0) ∧
    ((uuidForce r).getD 6 0).toNat = (r.getD 6 0).toNat % 16 + 0x40 ∧
    ((uuidForce r).getD 8 0).toNat = (r.getD 8 0).toNat % 64 + 0x80

/-- R212: byte `i` of the sequence occupies two consecutive characters, high nibble first, lowercase; hyphens stand at
8, 13, 18 and 23. -/
def Obligations.RenderPlacesDigits : Prop :=
  ∀ u : List Byte, u.length = 16 →
    (uuidRender u).length = 36 ∧ (∀ p ∈ [8, 13, 18, 23], (uuidRender u).getD p 0 = 0x2D#8) ∧
    ∀ i, i < 16 →
      ∀ p, p = 2 * i + (if i < 4 then 0 else if i < 6 then 1 else if i < 8 then 2 else if i < 10 then 3 else 4) →
        ∀ q h, (q = p ∧ h = (u.getD i 0).toNat / 16) ∨ (q = p + 1 ∧ h = (u.getD i 0).toNat % 16) →
          ((uuidRender u).getD q 0).toNat = if h < 10 then 0x30 + h else 0x61 + (h - 10)

/-- 46_uuid section 3: every string UUID4 forms matches the source's pattern: lowercase hexadecimal digits in 8-4-4-4-12
form, the 13th `4`, the 17th one of `8`, `9`, `a`, `b`. -/
def Obligations.UuidMatchesPattern : Prop :=
  ∀ r : List Byte, r.length = 16 → ∀ p, p < 36 →
    ∃ c, ((uuidRender (uuidForce r))[p]?).map BitVec.toNat = some c ∧
      (if p = 8 ∨ p = 13 ∨ p = 18 ∨ p = 23 then c = 0x2D
       else if p = 14 then c = 0x34
       else if p = 19 then c = 0x38 ∨ c = 0x39 ∨ c = 0x61 ∨ c = 0x62
       else (0x30 ≤ c ∧ c ≤ 0x39) ∨ (0x61 ≤ c ∧ c ≤ 0x66))

/-- 46_uuid section 4, both ways: two inputs give the same string exactly when they differ in nothing but the forced
bits. -/
def Obligations.UuidStringDecidesUnforcedBits : Prop :=
  ∀ r r' : List Byte, r.length = 16 → r'.length = 16 →
    (uuidRender (uuidForce r) = uuidRender (uuidForce r') ↔
      (∀ i, i < 16 → i ≠ 6 → i ≠ 8 → r.getD i 0 = r'.getD i 0) ∧
      (r.getD 6 0).toNat % 16 = (r'.getD 6 0).toNat % 16 ∧ (r.getD 8 0).toNat % 64 = (r'.getD 8 0).toNat % 64)

/-! ## The whole machine -/

/-- The state right after power-up (10_state section 10): the invariant holds, `CAUSE` is 0, and no byte of `M` holds a
value (log 3); nothing is said of the registers, whose values there are the model's choice (log 2). -/
def Obligations.ResetHasInvariant : Prop :=
  State.Inv State.reset ∧ State.reset.cause = 0#8 ∧ ∀ a, memByte State.reset.mem a = none

/-- Every step keeps the invariant: memory in its canonical form, no byte at or past MEM_SIZE, `CAUSE` never 3 and never
above 7 (10_state R25, R29). -/
def Obligations.StepKeepsInvariant : Prop := ∀ s t : State, State.Inv s → step s = .next t → State.Inv t

/-- R59 and 60_exceptions section 3: a command, legal or reserved, that ends with an error has changed `CAUSE` and
nothing else: no register, no byte of `M`. -/
def Obligations.FailedCommandChangesOnlyCause : Prop :=
  ∀ (c : Byte) (s t : State), runCommand c s = .next t → t.cause ≠ 0#8 →
    t = { s with cause := t.cause } ∧ ∀ a, memByte t.mem a = memByte s.mem a

/-- 60_exceptions section 1: which command can leave which code, and on what condition; EncodingError (3) comes from no
command, and IllegalCommand (4) from a reserved word only. -/
def Obligations.EachCodeHasItsCondition : Prop :=
  (∀ (i : Instr) (s t : State), exec i s = .next t →
    t.cause.toNat ≤ 7 ∧ t.cause ≠ 3#8 ∧ t.cause ≠ 4#8 ∧
    (t.cause = 1#8 → (i = .wrS64be ∧ ¬ (-(2 ^ 63) ≤ s.X.toInt ∧ s.X.toInt ≤ 2 ^ 63 - 1)) ∨
      (i = .wrU64be ∧ ¬ (0 ≤ s.X.toInt ∧ s.X.toInt ≤ 2 ^ 64 - 1))) ∧
    (t.cause = 2#8 → (i ∈ [Instr.rduBe, .rduLe, .md5, .sha1, .sha256] ∧ s.params.memSize < s.B.toNat) ∨
      (i ∈ [Instr.rdS64be, .rdU64be] ∧ s.params.memSize < s.A.toNat + 8) ∨
      (i = .uuid4 ∧ s.params.memSize < s.A.toNat + 16)) ∧
    (t.cause = 5#8 → i ∈ [Instr.wrxLe, .wrS64be, .wrU64be, .md5, .sha1, .sha256, .uuid4] ∧
      s.params.memSize < s.D.toNat + writeLen i s) ∧
    (t.cause = 6#8 → i ∈ [Instr.rduBe, .rduLe] ∧ ∃ bytes, rangeReady s bytes ∧
      2 ^ s.params.xw ≤ (if i = .rduBe then beVal bytes else leVal bytes)) ∧
    (t.cause = 7#8 → i ∈ [Instr.rduBe, .rduLe, .md5, .sha1, .sha256] ∧ s.B.toNat < s.A.toNat)) ∧
  ∀ (c : Byte) (s t : State), runCommand c s = .next t → (t.cause = 4#8 ↔ reservedWord c = true)

/-- 10_state section 2 (R21): no command ever writes `A`, `B` or `D`; nor does it touch the model's own fields, so the
parameters stay what they are. -/
def Obligations.CommandsNeverWriteOperandRegisters : Prop :=
  ∀ (i : Instr) (s t : State), exec i s = .next t →
    t.A = s.A ∧ t.B = s.B ∧ t.D = s.D ∧ t.params = s.params ∧ t.script = s.script ∧ t.replies = s.replies ∧
    t.resets = s.resets

/-- R22: `N` is written only by a command that succeeds, and only by the writers, the hash commands and UUID4; the value
is at most MEM_SIZE, and it is `D + 8`, the byte count, the digest length or 36; the host may read `N`, and a host write
to it is ignored. -/
def Obligations.NIsWrittenOnSuccessOnly : Prop :=
  (∀ (i : Instr) (s t : State), exec i s = .next t →
    if t.cause = 0#8 ∧ i ∈ [Instr.wrxLe, .wrS64be, .wrU64be, .md5, .sha1, .sha256, .uuid4] then
      t.N.toNat ≤ s.params.memSize ∧
      t.N.toNat = (if i = .wrS64be ∨ i = .wrU64be then s.D.toNat + 8 else writeLen i s)
    else t.N = s.N) ∧
  ∀ (s : State) (rest : List HostMove),
    (s.script = .hrd 3 :: rest → step s = .next { s with script := rest, replies := s.replies ++ [s.N.toNat] }) ∧
    ∀ v : Int, s.script = .hwr 3 v :: rest → step s = .next { s with script := rest }

/-- No step, of a command or of the host, changes MEM_SIZE or XBYTES (00_scope R4: parameters, not state). -/
def Obligations.StepKeepsParameters : Prop := ∀ s t : State, step s = .next t → t.params = s.params

/-- 93_implementation_defined section 1 ("Nothing in QCH is stuck") with the model's one stop (log 3): a command whose
read extent is written, where it lies in `M`, always has a next state; no command is ever refused; and a command stops
only where a byte of its read extent holds no value. -/
def Obligations.NothingIsStuck : Prop :=
  ∀ (i : Instr) (s : State),
    ((∀ j, j < readLen i s → s.A.toNat + j < s.params.memSize → memByte s.mem (s.A.toNat + j) ≠ none) →
      ∃ t, exec i s = .next t) ∧
    (∀ r, exec i s ≠ .refused r) ∧
    ∀ f, exec i s = .fault f → f = .unwrittenByte ∧
      ∃ j, j < readLen i s ∧ s.A.toNat + j < s.params.memSize ∧ memByte s.mem (s.A.toNat + j) = none

/-- 10_state section 9: no hidden state. The outcome of a command does not depend on `N`, on `CAUSE`, or on any byte
outside the read extent: a state that differs in those alone gives the same `CAUSE`, the same `X`, and on success the
same `N` where the command writes it and the same bytes in the write extent. -/
def Obligations.NoHiddenState : Prop :=
  ∀ (i : Instr) (s : State) (m : Memory) (n : Word) (c : Byte),
    (∀ a, inExtent s.A.toNat (readLen i s) a → memByte m a = memByte s.mem a) →
    (∀ f, exec i s = .fault f → exec i { s with mem := m, N := n, cause := c } = .fault f) ∧
    ∀ t, exec i s = .next t → ∃ u, exec i { s with mem := m, N := n, cause := c } = .next u ∧
      u.cause = t.cause ∧ u.X.toNat = t.X.toNat ∧
      (t.cause = 0#8 → 0 < writeLen i s → u.N = t.N) ∧
      (t.cause = 0#8 → ∀ a, inExtent s.D.toNat (writeLen i s) a → memByte u.mem a = memByte t.mem a)

/-- 10_state section 9: issuing the same reader, hash or UUID command again, with its write extent clear of its read
extent, changes nothing more: the second run ends in the same state. -/
def Obligations.RepeatedCommandIsIdempotent : Prop :=
  ∀ (i : Instr) (s t : State), i ∈ [Instr.rduBe, .rduLe, .rdS64be, .rdU64be, .md5, .sha1, .sha256, .uuid4] →
    Memory.wf s.mem = true → exec i s = .next t → t.cause = 0#8 →
    (∀ a, inExtent s.A.toNat (readLen i s) a → ¬ inExtent s.D.toNat (writeLen i s) a) → exec i t = .next t

/-! ## The host's moves -/

/-- 30_encoding section 7, HWR: a 32-bit value goes to `A`, `B` or `D`; a signed or unsigned XW-bit value goes to `X` as
the pattern `v mod 2^XW`; a write to `N` or `CAUSE` does nothing (log 7: whatever the value); a write of a word to
register number 6 executes it (the model's reading of R26 and R34, log 5). -/
def Obligations.HostWriteStoresRegister : Prop :=
  ∀ (s : State) (rest : List HostMove) (r : Nat) (v : Int), s.script = .hwr r v :: rest →
    (0 ≤ v → v < 2 ^ 32 →
      (r = 0 → step s = .next { s with script := rest, A := BitVec.ofNat 32 v.toNat }) ∧
      (r = 1 → step s = .next { s with script := rest, B := BitVec.ofNat 32 v.toNat }) ∧
      (r = 2 → step s = .next { s with script := rest, D := BitVec.ofNat 32 v.toNat })) ∧
    (r = 4 → -(2 ^ (s.params.xw - 1)) ≤ v → v < 2 ^ s.params.xw →
      step s = .next { s with script := rest, X := BitVec.ofNat s.params.xw (v % 2 ^ s.params.xw).toNat }) ∧
    (r = 3 ∨ r = 5 → step s = .next { s with script := rest }) ∧
    (r = 6 → 0 ≤ v → v < 256 → step s = runCommand (BitVec.ofNat 8 v.toNat) { s with script := rest })

/-- 30_encoding section 7, HRD: the host reads the pattern of the register, and `CMD` reads as 0; the read has no side
effect on QCH (the value is appended to the model's record of replies, log 8). -/
def Obligations.HostReadGivesPattern : Prop :=
  ∀ (s : State) (rest : List HostMove) (r v : Nat), s.script = .hrd r :: rest →
    (r, v) ∈ [(0, s.A.toNat), (1, s.B.toNat), (2, s.D.toNat), (3, s.N.toNat), (4, s.X.toNat), (5, s.cause.toNat), (6, 0)] →
    step s = .next { s with script := rest, replies := s.replies ++ [v] }

/-- 30_encoding section 7, HSB then HLB: the byte stored is the byte loaded, and no other byte changes. -/
def Obligations.HostStoreThenLoad : Prop :=
  ∀ (s : State) (rest : List HostMove) (a v : Nat), s.script = .hsb a v :: .hlb a :: rest → a < s.params.memSize → v < 256 →
    ∃ t, step s = .next t ∧ t = { s with script := .hlb a :: rest, mem := t.mem } ∧
      holdsAt t.mem s.mem a [BitVec.ofNat 8 v] ∧
      step t = .next { t with script := rest, replies := s.replies ++ [v] }

/-- 30_encoding section 7: a move the table does not allow is refused: a register number of 7 or more, an offset at or
past MEM_SIZE, a value out of range (for register number 6, a value that is no command word: log 5). -/
def Obligations.MoveOutsideTableIsRefused : Prop :=
  ∀ (s : State) (m : HostMove) (rest : List HostMove), s.script = m :: rest →
    (∃ r v, m = .hwr r v ∧ (7 ≤ r ∨ (r ≤ 2 ∧ (v < 0 ∨ 2 ^ 32 ≤ v)) ∨
      (r = 4 ∧ (v < -(2 ^ (s.params.xw - 1)) ∨ 2 ^ s.params.xw ≤ v)) ∨ (r = 6 ∧ (v < 0 ∨ 256 ≤ v)))) ∨
    (∃ r, m = .hrd r ∧ 7 ≤ r) ∨ (∃ a v, m = .hsb a v ∧ (s.params.memSize ≤ a ∨ 256 ≤ v)) ∨
    (∃ a, m = .hlb a ∧ s.params.memSize ≤ a) →
    step s = .refused .moveNotAllowed

/-- 70_reset section 1, the RESET move: `CAUSE <- 0`; no byte of `M` holds a value any more, so a host load of any byte
stops (log 3). Nothing is said of `A`, `B`, `D`, `N`, `X`, which become unspecified (free values, log 4). -/
def Obligations.ResetMoveClearsCauseAndMemory : Prop :=
  ∀ (s : State) (rest : List HostMove), s.script = .reset :: rest →
    ∃ t, step s = .next t ∧ t.cause = 0#8 ∧ (∀ a, memByte t.mem a = none) ∧ t.params = s.params ∧ t.script = rest ∧
      t.replies = s.replies ∧ t.resets = s.resets + 1 ∧
      ∀ a, a < s.params.memSize → step { t with script := [.hlb a] } = .fault .unwrittenByte

/-- 30_encoding section 7, the pseudo-instructions. DIGEST is the command of its algorithm and has no expansion for any
other name; HFILL stores the bytes one after another. The last clause, on texts, covers every text: outside ASCII, of
which the spec does not speak, it is the model's choice (log 12, DESIGN CHOICE). -/
def Obligations.PseudoInstructionsExpand : Prop :=
  digestMoves "md5" = some [.cmd 0x30#8] ∧ digestMoves "sha1" = some [.cmd 0x31#8] ∧
  digestMoves "sha256" = some [.cmd 0x32#8] ∧
  (∀ name : String, name ≠ "md5" → name ≠ "sha1" → name ≠ "sha256" → digestMoves name = none) ∧
  ∀ (a : Nat) (vs : List Nat), (fillMoves a vs).length = vs.length ∧
    (∀ i, i < vs.length → (fillMoves a vs)[i]? = some (.hsb (a + i) (vs.getD i 0))) ∧
    ∀ text : String, fillTextMoves a text = fillMoves a (text.toList.map Char.toNat)

/-! ## Digests as bytes -/

/-- R156, R197, and 44_sha256 section 4 for SHA-256: the digest is the state's words in order, byte `i` of a word the
`i`-th from the most significant for SHA-1 and SHA-256 and from the least significant for MD5. -/
def Obligations.DigestSerialisesWordsInOrder : Prop :=
  (∀ h : Md5State, (md5Serialise h).length = 16 ∧
    ∀ j i w, [h.a, h.b, h.c, h.d][j]? = some w → i < 4 →
      ((md5Serialise h)[4 * j + i]?).map BitVec.toNat = some (w.toNat / 256 ^ i % 256)) ∧
  (∀ h : Sha1State, (sha1Serialise h).length = 20 ∧
    ∀ j i w, [h.a, h.b, h.c, h.d, h.e][j]? = some w → i < 4 →
      ((sha1Serialise h)[4 * j + i]?).map BitVec.toNat = some (w.toNat / 256 ^ (3 - i) % 256)) ∧
  ∀ h : Sha256State, (sha256Serialise h).length = 32 ∧
    ∀ j i w, [h.a, h.b, h.c, h.d, h.e, h.f, h.g, h.h][j]? = some w → i < 4 →
      ((sha256Serialise h)[4 * j + i]?).map BitVec.toNat = some (w.toNat / 256 ^ (3 - i) % 256)
end

