-- ==== Sys2Proof/Laws/Bytes.lean ====
section
/-! SUPPORT. Byte sequences and integers: lengths, digits and bounds (00_scope R7, R8). -/

namespace Sys2Proof.Machine

@[simp] theorem length_leBytes (n : Nat) : ∀ v, (leBytes v n).length = n := by
  induction n with
  | zero => exact fun _ => rfl
  | succ n ih => intro v; simp [leBytes, ih]

@[simp] theorem length_beBytes (v n : Nat) : (beBytes v n).length = n := by simp [beBytes]

/-- Byte `i` of `le_bytes(v, n)` is `floor(v / 256^i) mod 256` (R111). -/
theorem getElem?_leBytes (n : Nat) : ∀ v i, i < n → (leBytes v n)[i]? = some (BitVec.ofNat 8 (v / 256 ^ i)) := by
  induction n with
  | zero => intro v i h; omega
  | succ n ih =>
    intro v i h
    cases i with
    | zero => simp [leBytes]
    | succ i =>
      rw [leBytes, List.getElem?_cons_succ, ih _ _ (by omega), Nat.div_div_eq_div_mul, Nat.pow_succ']

theorem foldl_be (s : List Byte) : ∀ acc, s.foldl (fun acc y => acc * 256 + y.toNat) acc = acc * 256 ^ s.length + beVal s := by
  induction s with
  | nil => intro acc; simp [beVal]
  | cons y s ih =>
    intro acc
    simp only [beVal, List.foldl_cons, List.length_cons]
    rw [ih, ih (0 * 256 + y.toNat)]
    ring

theorem beVal_cons (y : Byte) (s : List Byte) : beVal (y :: s) = y.toNat * 256 ^ s.length + beVal s := by
  have := foldl_be s (0 * 256 + y.toNat)
  simpa [beVal] using this

theorem beVal_append (s t : List Byte) : beVal (s ++ t) = beVal s * 256 ^ t.length + beVal t := by
  rw [beVal, List.foldl_append, foldl_be t]; rfl

theorem leVal_append (s t : List Byte) : leVal (s ++ t) = leVal s + 256 ^ s.length * leVal t := by
  induction s with
  | nil => simp [leVal]
  | cons y s ih => simp only [List.cons_append, leVal, ih, List.length_cons]; ring

theorem leVal_lt (s : List Byte) : leVal s < 256 ^ s.length := by
  induction s with
  | nil => simp [leVal]
  | cons y s ih =>
    have := y.isLt
    simp only [leVal, List.length_cons, Nat.pow_succ]
    omega

/-- Writing `n` digits and reading them back gives the value modulo `256^n`. -/
theorem leVal_leBytes (n : Nat) : ∀ v, leVal (leBytes v n) = v % 256 ^ n := by
  induction n with
  | zero => intro v; simp [leBytes, leVal, Nat.mod_one]
  | succ n ih =>
    intro v
    simp only [leBytes, leVal, ih, BitVec.toNat_ofNat]
    exact (Nat.mod_mul (a := 256)).symm.trans (by rw [← Nat.pow_succ'])

/-- The 64-bit writers' bytes are the 8 big-endian digits of the pattern. -/
theorem write64_eq (u : Nat) : write64 (u % 2 ^ 64) = beBytes u 8 := by
  simp only [write64, beBytes, leBytes, List.reverse_cons, List.reverse_nil, List.nil_append, List.cons_append,
    List.cons.injEq, and_true]
  refine ⟨?_, ?_, ?_, ?_, ?_, ?_, ?_, ?_⟩ <;>
    (apply BitVec.eq_of_toNat_eq; simp only [BitVec.toNat_ofNat]; omega)

@[simp] theorem length_write64 (u : Nat) : (write64 u).length = 8 := by simp [write64]

theorem extendedLen_ge (v : Nat) : 8 ≤ extendedLen v := Nat.le_max_left _ _

/-- `bytelen(v)` is enough digits: `v < 256^bytelen(v)`. -/
theorem lt_pow_byteLen (v : Nat) : v < 256 ^ byteLen v := by
  unfold byteLen
  split
  · simp_all
  · have h := @Nat.lt_log2_self v
    have : (256 : Nat) ^ (v.log2 / 8 + 1) = 2 ^ (8 * (v.log2 / 8 + 1)) := by rw [Nat.pow_mul]
    rw [this]
    exact h.trans_le (Nat.pow_le_pow_right (by omega) (by omega))

/-- ... and no fewer are enough. -/
theorem byteLen_le {v k : Nat} (h : v < 256 ^ k) : byteLen v ≤ k := by
  unfold byteLen
  split
  · omega
  · rename_i hv
    have h1 : v < 2 ^ (8 * k) := by rw [Nat.pow_mul]; exact h
    have := (Nat.log2_lt hv).2 h1
    omega

end Sys2Proof.Machine
end

