-- ==== Sys2Proof/Laws/Decode.lean ====
section
/-! SUPPORT. What the decoder can answer. -/

namespace Sys2Proof

/-- The decoder answers a command or refuses the word by name. -/
theorem decode_cases (c : Byte) : (∃ i, decode c = .ok i) ∨ decode c = .error (.reserved c) := by
  unfold decode
  split
  · exact .inl ⟨_, rfl⟩
  · exact .inr rfl

theorem commandWordOf_toNat (c : Byte) : commandWordOf 8 c.toNat = c := by
  simp [commandWordOf, Nat.mod_eq_of_lt c.isLt]

end Sys2Proof
end

