-- ==== Sys2Proof/Laws/Hash.lean ====
section
/-! SUPPORT. Shapes of the hash engines' data and of the UUID string: lengths and indexed pieces. -/

namespace Sys2Proof.Machine

@[simp] theorem length_chunks (size n : Nat) : ∀ s, (chunks size n s).length = n := by
  induction n with
  | zero => exact fun _ => rfl
  | succ n ih => intro s; simp [chunks, ih]

/-- Piece `i` is the `size` elements from `size * i`. -/
theorem getElem?_chunks (size n : Nat) : ∀ s i, i < n →
    (chunks size n s)[i]? = some ((s.drop (size * i)).take size) := by
  induction n with
  | zero => intro s i h; omega
  | succ n ih =>
    intro s i h
    cases i with
    | zero => simp [chunks]
    | succ i =>
      rw [chunks, List.getElem?_cons_succ, ih _ _ (by omega), List.drop_drop, Nat.mul_succ, Nat.add_comm size]

@[simp] theorem length_blockWords (val : List Byte → Nat) (block : List Byte) : (blockWords val block).length = 16 := by
  simp [blockWords]

/-- Word `j` of a block is made from its bytes `4j` to `4j+3` (R131). -/
theorem getD_blockWords (val : List Byte → Nat) (block : List Byte) (j : Nat) (h : j < 16) :
    (blockWords val block).getD j 0 = BitVec.ofNat 32 (val ((block.drop (4 * j)).take 4)) := by
  rw [List.getD_eq_getElem?_getD, blockWords, List.getElem?_map, getElem?_chunks _ _ _ _ h]; rfl

/-! ## The steps, one at a time (R154, R175, R195) -/

@[simp] theorem md5Steps_zero (xw : List Word) (v : Md5State) : md5Steps xw v 0 = v := rfl
@[simp] theorem md5Steps_succ (xw : List Word) (v : Md5State) (t : Nat) :
    md5Steps xw v (t + 1) = md5Step t (xw.getD (md5Index t) 0) (md5Steps xw v t) := rfl
@[simp] theorem sha1Steps_zero (ws : List Word) (v : Sha1State) : sha1Steps ws v 0 = v := rfl
@[simp] theorem sha1Steps_succ (ws : List Word) (v : Sha1State) (t : Nat) :
    sha1Steps ws v (t + 1) = sha1Step t (ws.getD t 0) (sha1Steps ws v t) := rfl
@[simp] theorem sha256Steps_zero (ws : List Word) (v : Sha256State) : sha256Steps ws v 0 = v := rfl
@[simp] theorem sha256Steps_succ (ws : List Word) (v : Sha256State) (t : Nat) :
    sha256Steps ws v (t + 1) = sha256Step t (ws.getD t 0) (sha256Steps ws v t) := rfl

@[simp] theorem length_extendSchedule (next : List Word → Word) (n : Nat) : ∀ ws,
    (extendSchedule next n ws).length = ws.length + n := by
  induction n with
  | zero => exact fun _ => rfl
  | succ n ih => intro ws; simp only [extendSchedule, ih, List.length_append, List.length_singleton]; omega

/-- Extending a schedule keeps the words that are there, and word `j` is computed from the words before it. -/
theorem getElem?_extendSchedule (next : List Word → Word) (n : Nat) : ∀ ws j, j < ws.length + n →
    (extendSchedule next n ws)[j]? =
      if j < ws.length then ws[j]? else some (next ((extendSchedule next n ws).take j)) := by
  induction n with
  | zero => intro ws j h; rw [if_pos (by omega)]; rfl
  | succ n ih =>
    intro ws j h
    simp only [extendSchedule]
    rw [ih _ _ (by simp only [List.length_append, List.length_singleton]; omega)]
    simp only [List.length_append, List.length_singleton]
    by_cases h1 : j < ws.length
    · rw [if_pos (by omega), if_pos h1, List.getElem?_append_left h1]
    · rw [if_neg h1]
      by_cases h2 : j = ws.length
      · subst h2
        rw [if_pos (by omega), List.getElem?_append_right (by omega), Nat.sub_self]
        have : (extendSchedule next n (ws ++ [next ws])).take ws.length = ws := by
          apply List.ext_getElem?
          intro i
          rw [List.getElem?_take]
          split
          · rename_i hi
            rw [ih _ _ (by simp only [List.length_append, List.length_singleton]; omega),
              if_pos (by simp only [List.length_append, List.length_singleton]; omega), List.getElem?_append_left hi]
          · rename_i hi; rw [List.getElem?_eq_none (by omega)]
        rw [this]; rfl
      · rw [if_neg (by omega)]

@[simp] theorem length_sha1Hash (msg : List Byte) : (sha1Hash msg).length = 20 := by simp [sha1Hash, sha1Serialise]

@[simp] theorem length_sha256Hash (msg : List Byte) : (sha256Hash msg).length = 32 := by
  simp [sha256Hash, sha256Serialise]

@[simp] theorem length_md5Hash (msg : List Byte) : (md5Hash msg).length = 16 := by simp [md5Hash, md5Serialise]

@[simp] theorem length_uuidForce (r : List Byte) : (uuidForce r).length = r.length := by simp [uuidForce]

@[simp] theorem length_hexByte (y : Byte) : (hexByte y).length = 2 := rfl

theorem length_hexGroup (u : List Byte) (i j : Nat) (h : j ≤ u.length) : (hexGroup u i j).length = 2 * (j - i) := by
  simp only [hexGroup, List.length_flatMap, length_hexByte, List.map_const', List.sum_replicate, smul_eq_mul,
    List.length_take, List.length_drop]
  omega

/-- The string has 36 characters (R210, R212). -/
theorem length_uuidRender {u : List Byte} (h : u.length = 16) : (uuidRender u).length = 36 := by
  simp only [uuidRender, List.length_append, List.length_singleton,
    length_hexGroup u _ _ (by omega : (4 : Nat) ≤ u.length), length_hexGroup u _ _ (by omega : (6 : Nat) ≤ u.length),
    length_hexGroup u _ _ (by omega : (8 : Nat) ≤ u.length), length_hexGroup u _ _ (by omega : (10 : Nat) ≤ u.length),
    length_hexGroup u _ _ (by omega : (16 : Nat) ≤ u.length)]

end Sys2Proof.Machine
end

