-- ==== Sys2Proof/Laws/Memory.lean ====
section
/-! SUPPORT. The laws of the buffer memory: read after write, and every operation keeps the canonical form and the
range of offsets. -/

namespace Sys2Proof.Machine

@[simp] theorem memByte_nil (a : Nat) : memByte [] a = none := rfl

theorem memByte_memPut (m : Memory) (a b : Nat) (y : Byte) :
    memByte (memPut m a y) b = if a = b then some y else memByte m b := by
  induction m with
  | nil => rfl
  | cons c m ih =>
    obtain ⟨k, z⟩ := c
    simp only [memPut]
    split
    · simp [memByte]
    · split
      · subst_vars; simp only [memByte]; split <;> simp_all
      · simp only [memByte, ih]; split <;> split <;> simp_all

theorem memByte_memPut_same (m : Memory) (a : Nat) (y : Byte) : memByte (memPut m a y) a = some y := by
  simp [memByte_memPut]

theorem memByte_memPut_other (m : Memory) {a b : Nat} (y : Byte) (h : a ≠ b) :
    memByte (memPut m a y) b = memByte m b := by
  simp [memByte_memPut, h]

/-- Read after a write, everywhere: inside the written bytes the byte written, outside the byte that stood there. -/
theorem memByte_memWrite (s : List Byte) : ∀ (m : Memory) (a b : Nat),
    memByte (memWrite m a s) b = if a ≤ b ∧ b < a + s.length then s[b - a]? else memByte m b := by
  induction s with
  | nil => intro m a b; rw [if_neg (by simp)]; rfl
  | cons y s ih =>
    intro m a b
    simp only [memWrite, ih, memByte_memPut, List.length_cons]
    by_cases h1 : a = b
    · subst h1; simp
    · by_cases h2 : a + 1 ≤ b ∧ b < a + 1 + s.length
      · rw [if_pos h2, if_pos (by omega), show b - a = (b - (a + 1)) + 1 by omega, List.getElem?_cons_succ]
      · rw [if_neg h2, if_neg h1, if_neg (by omega)]

theorem memByte_memWrite_outside {s : List Byte} {m : Memory} {a b : Nat} (h : ¬ (a ≤ b ∧ b < a + s.length)) :
    memByte (memWrite m a s) b = memByte m b := by
  rw [memByte_memWrite, if_neg h]

theorem memByte_memWrite_inside {s : List Byte} {m : Memory} {a i : Nat} (h : i < s.length) :
    memByte (memWrite m a s) (a + i) = s[i]? := by
  rw [memByte_memWrite, if_pos (by omega), Nat.add_sub_cancel_left]

/-- What `MemRead` answers: the bytes of the extent, and only if every one of them holds a value. -/
theorem memRead_eq_some_iff (m : Memory) : ∀ (n a : Nat) (s : List Byte),
    memRead m a n = some s ↔ s.length = n ∧ ∀ i, i < n → memByte m (a + i) = s[i]? := by
  intro n
  induction n with
  | zero => intro a s; cases s <;> simp [memRead]
  | succ n ih =>
    intro a s
    simp only [memRead]
    constructor
    · intro h
      split at h
      · rename_i y t hy ht
        obtain rfl := Option.some.inj h
        obtain ⟨hl, hb⟩ := (ih _ _).1 ht
        refine ⟨by simp [hl], fun i hi => ?_⟩
        cases i with
        | zero => simpa using hy
        | succ i => simpa [Nat.add_assoc, Nat.add_comm 1] using hb i (by omega)
      · cases h
    · rintro ⟨hl, hb⟩
      cases s with
      | nil => simp at hl
      | cons y t =>
        have h0 : memByte m a = some y := by simpa using hb 0 (by omega)
        have ht : memRead m (a + 1) n = some t := (ih _ _).2
          ⟨by simpa using hl, fun i hi => by simpa [Nat.add_assoc, Nat.add_comm 1] using hb (i + 1) (by omega)⟩
        simp [h0, ht]

theorem memRead_length {m : Memory} {a n : Nat} {s : List Byte} (h : memRead m a n = some s) : s.length = n :=
  ((memRead_eq_some_iff m n a s).1 h).1

theorem memRead_byte {m : Memory} {a n : Nat} {s : List Byte} (h : memRead m a n = some s) {i : Nat} (hi : i < n) :
    memByte m (a + i) = s[i]? :=
  ((memRead_eq_some_iff m n a s).1 h).2 i hi

/-- `MemRead` looks at the bytes of the extent and at nothing else. -/
theorem memRead_congr {m m' : Memory} : ∀ {n a : Nat}, (∀ i, i < n → memByte m' (a + i) = memByte m (a + i)) →
    memRead m' a n = memRead m a n := by
  intro n
  induction n with
  | zero => intros; rfl
  | succ n ih =>
    intro a h
    have h0 : memByte m' a = memByte m a := by simpa using h 0 (by omega)
    have ht : memRead m' (a + 1) n = memRead m (a + 1) n :=
      ih fun i hi => by simpa [Nat.add_assoc, Nat.add_comm 1] using h (i + 1) (by omega)
    simp only [memRead, h0, ht]

/-- `MemRead` answers nothing exactly when a byte of the extent holds no value. -/
theorem memRead_eq_none_iff {m : Memory} : ∀ {n a : Nat},
    memRead m a n = none ↔ ∃ i, i < n ∧ memByte m (a + i) = none := by
  intro n
  induction n with
  | zero => simp [memRead]
  | succ n ih =>
    intro a
    simp only [memRead]
    constructor
    · intro h
      split at h
      · cases h
      · rename_i hno
        cases h0 : memByte m a with
        | none => exact ⟨0, by omega, by simpa using h0⟩
        | some y =>
          cases ht : memRead m (a + 1) n with
          | none =>
            obtain ⟨i, hi, hb⟩ := ih.1 ht
            exact ⟨i + 1, by omega, by simpa [Nat.add_assoc, Nat.add_comm 1] using hb⟩
          | some t => exact absurd ht (hno y t h0)
    · rintro ⟨i, hi, hb⟩
      cases i with
      | zero => rw [Nat.add_zero] at hb; rw [hb]
      | succ i =>
        have : memRead m (a + 1) n = none :=
          ih.2 ⟨i, by omega, by simpa [Nat.add_assoc, Nat.add_comm 1] using hb⟩
        rw [this]; split <;> simp_all

/-- What is written is read back. -/
theorem memRead_memWrite (m : Memory) (a : Nat) (s : List Byte) : memRead (memWrite m a s) a s.length = some s :=
  (memRead_eq_some_iff _ _ _ _).2 ⟨rfl, fun _ hi => memByte_memWrite_inside hi⟩

theorem memWrite_append (s t : List Byte) : ∀ (m : Memory) (a : Nat),
    memWrite m a (s ++ t) = memWrite (memWrite m a s) (a + s.length) t := by
  induction s with
  | nil => intros; rfl
  | cons y s ih => intro m a; simp [memWrite, ih, Nat.add_assoc, Nat.add_comm 1]

/-! ## The canonical form -/

theorem memPut_keys {m : Memory} {a : Nat} {y : Byte} {c : Host.Cell} (h : c ∈ memPut m a y) :
    c = (a, y) ∨ c ∈ m := by
  induction m with
  | nil => simpa [memPut] using h
  | cons d m ih =>
    obtain ⟨k, z⟩ := d
    simp only [memPut] at h
    split at h
    · simpa using h
    · split at h
      · rcases List.mem_cons.1 h with h | h
        · exact .inl h
        · exact .inr (List.mem_cons_of_mem _ h)
      · rcases List.mem_cons.1 h with h | h
        · exact .inr (by simp [h])
        · exact (ih h).imp id (List.mem_cons_of_mem _)

theorem wf_cons {k : Nat} {y : Byte} {m : Memory} :
    Memory.wf ((k, y) :: m) = true ↔ (∀ c ∈ m, k < c.1) ∧ Memory.wf m = true := by
  simp [Memory.wf]

theorem wf_memPut {m : Memory} (h : Memory.wf m = true) (a : Nat) (y : Byte) : Memory.wf (memPut m a y) = true := by
  induction m with
  | nil => rfl
  | cons d m ih =>
    obtain ⟨k, z⟩ := d
    obtain ⟨hk, hm⟩ := wf_cons.1 h
    simp only [memPut]
    split
    · rename_i hlt
      refine wf_cons.2 ⟨fun c hc => ?_, h⟩
      rcases List.mem_cons.1 hc with rfl | hc
      · exact hlt
      · exact hlt.trans (hk c hc)
    · split
      · rename_i heq; subst heq; exact wf_cons.2 ⟨hk, hm⟩
      · refine wf_cons.2 ⟨fun c hc => ?_, ih hm⟩
        rcases memPut_keys hc with rfl | hc
        · show k < a; omega
        · exact hk c hc

theorem wf_memWrite (s : List Byte) : ∀ {m : Memory}, Memory.wf m = true → ∀ a, Memory.wf (memWrite m a s) = true := by
  induction s with
  | nil => exact fun h _ => h
  | cons y s ih => exact fun h a => ih (wf_memPut h a y) _

theorem memBelow_iff {size : Nat} {m : Memory} : memBelow size m = true ↔ ∀ c ∈ m, c.1 < size := by
  simp [memBelow]

theorem memBelow_memPut {size : Nat} {m : Memory} (h : memBelow size m = true) {a : Nat} (ha : a < size) (y : Byte) :
    memBelow size (memPut m a y) = true := by
  refine memBelow_iff.2 fun c hc => ?_
  rcases memPut_keys hc with rfl | hc
  · exact ha
  · exact memBelow_iff.1 h c hc

theorem memBelow_memWrite {size : Nat} (s : List Byte) : ∀ {m : Memory}, memBelow size m = true →
    ∀ a, a + s.length ≤ size → memBelow size (memWrite m a s) = true := by
  induction s with
  | nil => exact fun h _ _ => h
  | cons y s ih =>
    intro m h a hs
    simp only [List.length_cons] at hs
    exact ih (memBelow_memPut h (by omega) y) _ (by omega)

/-- In the canonical form a byte that holds a value is listed, so it lies in range when the listing does. -/
theorem memByte_mem {m : Memory} {a : Nat} {y : Byte} (h : memByte m a = some y) : (a, y) ∈ m := by
  induction m with
  | nil => cases h
  | cons d m ih =>
    obtain ⟨k, z⟩ := d
    simp only [memByte] at h
    split at h
    · simp_all
    · exact List.mem_cons_of_mem _ (ih h)

end Sys2Proof.Machine
end

