-- ==== Sys2Proof/Laws/State.lean ====
section
/-! SUPPORT. One lemma per field per update of the state, true by rfl, so that no later proof unfolds one. The type of
`X` names the state's parameters, which no update changes, so `X` is compared at the parameters of the old state. -/

namespace Sys2Proof.Machine

/-! ## `raised` -/

@[simp] theorem raised_params (k : Cause) (s : State) : (raised k s).params = s.params := rfl
@[simp] theorem raised_A (k : Cause) (s : State) : (raised k s).A = s.A := rfl
@[simp] theorem raised_B (k : Cause) (s : State) : (raised k s).B = s.B := rfl
@[simp] theorem raised_D (k : Cause) (s : State) : (raised k s).D = s.D := rfl
@[simp] theorem raised_N (k : Cause) (s : State) : (raised k s).N = s.N := rfl
@[simp] theorem raised_X (k : Cause) (s : State) : ((raised k s).X : BitVec s.params.xw) = s.X := rfl
@[simp] theorem raised_cause (k : Cause) (s : State) : (raised k s).cause = causeCode k := rfl
@[simp] theorem raised_mem (k : Cause) (s : State) : (raised k s).mem = s.mem := rfl
@[simp] theorem raised_script (k : Cause) (s : State) : (raised k s).script = s.script := rfl
@[simp] theorem raised_replies (k : Cause) (s : State) : (raised k s).replies = s.replies := rfl
@[simp] theorem raised_resets (k : Cause) (s : State) : (raised k s).resets = s.resets := rfl

/-! ## `loaded` -/

@[simp] theorem loaded_params (s : State) (p : BitVec s.params.xw) : (loaded s p).params = s.params := rfl
@[simp] theorem loaded_A (s : State) (p : BitVec s.params.xw) : (loaded s p).A = s.A := rfl
@[simp] theorem loaded_B (s : State) (p : BitVec s.params.xw) : (loaded s p).B = s.B := rfl
@[simp] theorem loaded_D (s : State) (p : BitVec s.params.xw) : (loaded s p).D = s.D := rfl
@[simp] theorem loaded_N (s : State) (p : BitVec s.params.xw) : (loaded s p).N = s.N := rfl
@[simp] theorem loaded_X (s : State) (p : BitVec s.params.xw) : ((loaded s p).X : BitVec s.params.xw) = p := rfl
@[simp] theorem loaded_cause (s : State) (p : BitVec s.params.xw) : (loaded s p).cause = successCode := rfl
@[simp] theorem loaded_mem (s : State) (p : BitVec s.params.xw) : (loaded s p).mem = s.mem := rfl
@[simp] theorem loaded_script (s : State) (p : BitVec s.params.xw) : (loaded s p).script = s.script := rfl
@[simp] theorem loaded_replies (s : State) (p : BitVec s.params.xw) : (loaded s p).replies = s.replies := rfl
@[simp] theorem loaded_resets (s : State) (p : BitVec s.params.xw) : (loaded s p).resets = s.resets := rfl

/-! ## `stored` -/

@[simp] theorem stored_params (out : List Byte) (v : Nat) (s : State) : (stored out v s).params = s.params := rfl
@[simp] theorem stored_A (out : List Byte) (v : Nat) (s : State) : (stored out v s).A = s.A := rfl
@[simp] theorem stored_B (out : List Byte) (v : Nat) (s : State) : (stored out v s).B = s.B := rfl
@[simp] theorem stored_D (out : List Byte) (v : Nat) (s : State) : (stored out v s).D = s.D := rfl
@[simp] theorem stored_N (out : List Byte) (v : Nat) (s : State) : (stored out v s).N = BitVec.ofNat 32 v := rfl
@[simp] theorem stored_X (out : List Byte) (v : Nat) (s : State) : ((stored out v s).X : BitVec s.params.xw) = s.X := rfl
@[simp] theorem stored_cause (out : List Byte) (v : Nat) (s : State) : (stored out v s).cause = successCode := rfl
@[simp] theorem stored_mem (out : List Byte) (v : Nat) (s : State) : (stored out v s).mem = memWrite s.mem s.D.toNat out := rfl
@[simp] theorem stored_script (out : List Byte) (v : Nat) (s : State) : (stored out v s).script = s.script := rfl
@[simp] theorem stored_replies (out : List Byte) (v : Nat) (s : State) : (stored out v s).replies = s.replies := rfl
@[simp] theorem stored_resets (out : List Byte) (v : Nat) (s : State) : (stored out v s).resets = s.resets := rfl

/-! ## `resetMove` -/

@[simp] theorem resetMove_params (s : State) : (resetMove s).params = s.params := rfl
@[simp] theorem resetMove_A (s : State) : (resetMove s).A = Config.freeReg s.resets 0 := rfl
@[simp] theorem resetMove_B (s : State) : (resetMove s).B = Config.freeReg s.resets 1 := rfl
@[simp] theorem resetMove_D (s : State) : (resetMove s).D = Config.freeReg s.resets 2 := rfl
@[simp] theorem resetMove_N (s : State) : (resetMove s).N = Config.freeReg s.resets 3 := rfl
@[simp] theorem resetMove_X (s : State) : ((resetMove s).X : BitVec s.params.xw) = (Config.freeX s.params.xw s.resets) := rfl
@[simp] theorem resetMove_cause (s : State) : (resetMove s).cause = successCode := rfl
@[simp] theorem resetMove_mem (s : State) : (resetMove s).mem = [] := rfl
@[simp] theorem resetMove_script (s : State) : (resetMove s).script = s.script := rfl
@[simp] theorem resetMove_replies (s : State) : (resetMove s).replies = s.replies := rfl
@[simp] theorem resetMove_resets (s : State) : (resetMove s).resets = s.resets + 1 := rfl

/-! ## `withFetchWord` -/

@[simp] theorem withFetchWord_params (s : State) (nbits w : Nat) : (s.withFetchWord nbits w).params = s.params := rfl
@[simp] theorem withFetchWord_A (s : State) (nbits w : Nat) : (s.withFetchWord nbits w).A = s.A := rfl
@[simp] theorem withFetchWord_B (s : State) (nbits w : Nat) : (s.withFetchWord nbits w).B = s.B := rfl
@[simp] theorem withFetchWord_D (s : State) (nbits w : Nat) : (s.withFetchWord nbits w).D = s.D := rfl
@[simp] theorem withFetchWord_N (s : State) (nbits w : Nat) : (s.withFetchWord nbits w).N = s.N := rfl
@[simp] theorem withFetchWord_X (s : State) (nbits w : Nat) : ((s.withFetchWord nbits w).X : BitVec s.params.xw) = s.X := rfl
@[simp] theorem withFetchWord_cause (s : State) (nbits w : Nat) : (s.withFetchWord nbits w).cause = s.cause := rfl
@[simp] theorem withFetchWord_mem (s : State) (nbits w : Nat) : (s.withFetchWord nbits w).mem = s.mem := rfl
@[simp] theorem withFetchWord_script (s : State) (nbits w : Nat) : (s.withFetchWord nbits w).script = .cmd (commandWordOf nbits w) :: s.script := rfl
@[simp] theorem withFetchWord_replies (s : State) (nbits w : Nat) : (s.withFetchWord nbits w).replies = s.replies := rfl
@[simp] theorem withFetchWord_resets (s : State) (nbits w : Nat) : (s.withFetchWord nbits w).resets = s.resets := rfl

/-! ## `State.reset` -/

@[simp] theorem reset_params : State.reset.params = Params.vectors := rfl
@[simp] theorem reset_cause : State.reset.cause = 0#8 := rfl
@[simp] theorem reset_mem : State.reset.mem = [] := rfl
@[simp] theorem reset_script : State.reset.script = [] := rfl
@[simp] theorem reset_replies : State.reset.replies = [] := rfl

end Sys2Proof.Machine
end

