-- ==== Sys2Proof/Laws/Exec.lean ====
section
/-! SUPPORT. Everything the shared operations and exec can do, said once: later proofs cite these and unfold nothing. -/

namespace Sys2Proof.Machine

/-! ## The shared checks -/

theorem checkRange_pass {s : State} (h1 : s.A.toNat ≤ s.B.toNat) (h2 : s.B.toNat ≤ s.params.memSize)
    (k : Host.Outcome State Fault Refusal) : checkRange s k = k := by
  rw [checkRange, if_neg (by omega), if_neg (by omega)]

theorem checkRange_order {s : State} (h : s.B.toNat < s.A.toNat) (k : Host.Outcome State Fault Refusal) :
    checkRange s k = .next (raised .orderFault s) := by
  rw [checkRange, if_pos (by omega)]; rfl

theorem checkRange_length {s : State} (h1 : s.A.toNat ≤ s.B.toNat) (h2 : s.params.memSize < s.B.toNat)
    (k : Host.Outcome State Fault Refusal) : checkRange s k = .next (raised .lengthError s) := by
  rw [checkRange, if_neg (by omega), if_pos (by omega)]; rfl

theorem checkSource_pass {n : Nat} {s : State} (h : s.A.toNat + n ≤ s.params.memSize)
    (k : Host.Outcome State Fault Refusal) : checkSource n s k = k := by
  rw [checkSource, if_neg (by omega)]

theorem checkSource_fail {n : Nat} {s : State} (h : s.params.memSize < s.A.toNat + n)
    (k : Host.Outcome State Fault Refusal) : checkSource n s k = .next (raised .lengthError s) := by
  rw [checkSource, if_pos (by omega)]; rfl

theorem checkDest_pass {n : Nat} {s : State} (h : s.D.toNat + n ≤ s.params.memSize)
    (k : Host.Outcome State Fault Refusal) : checkDest n s k = k := by
  rw [checkDest, if_neg (by omega)]

theorem checkDest_fail {n : Nat} {s : State} (h : s.params.memSize < s.D.toNat + n)
    (k : Host.Outcome State Fault Refusal) : checkDest n s k = .next (raised .boundsFault s) := by
  rw [checkDest, if_pos (by omega)]; rfl

theorem withSource_some {n : Nat} {s : State} {bytes : List Byte} (h : memRead s.mem s.A.toNat n = some bytes)
    (k : List Byte → Host.Outcome State Fault Refusal) : withSource n s k = k bytes := by
  rw [withSource, h]

theorem withSource_none {n : Nat} {s : State} (h : memRead s.mem s.A.toNat n = none)
    (k : List Byte → Host.Outcome State Fault Refusal) : withSource n s k = .fault .unwrittenByte := by
  rw [withSource, h]

/-! ## What each command can do -/

/-- The error kinds a command of the opcode map raises (R220): all but EncodingError and IllegalCommand. -/
def commandCause (k : Cause) : Prop := k ≠ .encodingError ∧ k ≠ .illegalCommand

/-- What an outcome of a range reader is. -/
theorem readRange_cases (val : List Byte → Nat) (s : State) :
    (∃ k, commandCause k ∧ readRange val s = .next (raised k s)) ∨ (∃ p, readRange val s = .next (loaded s p)) ∨
    (memRead s.mem s.A.toNat (s.B.toNat - s.A.toNat) = none ∧ readRange val s = .fault .unwrittenByte) := by
  unfold readRange checkRange
  split
  · exact .inl ⟨.orderFault, by simp [commandCause], rfl⟩
  split
  · exact .inl ⟨.lengthError, by simp [commandCause], rfl⟩
  unfold withSource
  split
  · beta_reduce
    split
    · exact .inl ⟨.precisionFault, by simp [commandCause], rfl⟩
    · exact .inr (.inl ⟨_, rfl⟩)
  · exact .inr (.inr ⟨by assumption, rfl⟩)

theorem readFixed_cases (ext : (W : Nat) → Nat → BitVec W) (s : State) :
    (∃ k, commandCause k ∧ readFixed ext s = .next (raised k s)) ∨ (∃ p, readFixed ext s = .next (loaded s p)) ∨
    (memRead s.mem s.A.toNat 8 = none ∧ readFixed ext s = .fault .unwrittenByte) := by
  unfold readFixed checkSource
  split
  · exact .inl ⟨.lengthError, by simp [commandCause], rfl⟩
  unfold withSource
  split
  · exact .inr (.inl ⟨_, rfl⟩)
  · exact .inr (.inr ⟨by assumption, rfl⟩)

theorem execWrxLe_cases (s : State) :
    (∃ k, commandCause k ∧ execWrxLe s = .next (raised k s)) ∨
    (s.D.toNat + extendedLen s.X.toNat ≤ s.params.memSize ∧
      execWrxLe s = .next (stored (leBytes s.X.toNat (extendedLen s.X.toNat)) (extendedLen s.X.toNat) s)) := by
  unfold execWrxLe checkDest
  split
  · exact .inl ⟨.boundsFault, by simp [commandCause], rfl⟩
  · exact .inr ⟨by omega, rfl⟩

theorem writeFixed_cases (lo hi : Int) (s : State) :
    (∃ k, commandCause k ∧ writeFixed lo hi s = .next (raised k s)) ∨
    (s.D.toNat + 8 ≤ s.params.memSize ∧ ∃ u, writeFixed lo hi s = .next (stored (write64 u) (s.D.toNat + 8) s)) := by
  simp only [writeFixed, checkDest]
  split
  · exact .inl ⟨.rangeError, by simp [commandCause], rfl⟩
  split
  · exact .inl ⟨.boundsFault, by simp [commandCause], rfl⟩
  · exact .inr ⟨by omega, _, rfl⟩

theorem digestCmd_cases (hash : List Byte → List Byte) (dl : Nat) (s : State) :
    (∃ k, commandCause k ∧ digestCmd hash dl s = .next (raised k s)) ∨
    (s.D.toNat + dl ≤ s.params.memSize ∧ ∃ msg, digestCmd hash dl s = .next (stored (hash msg) dl s)) ∨
    (memRead s.mem s.A.toNat (s.B.toNat - s.A.toNat) = none ∧ digestCmd hash dl s = .fault .unwrittenByte) := by
  unfold digestCmd checkRange
  split
  · exact .inl ⟨.orderFault, by simp [commandCause], rfl⟩
  split
  · exact .inl ⟨.lengthError, by simp [commandCause], rfl⟩
  unfold checkDest
  split
  · exact .inl ⟨.boundsFault, by simp [commandCause], rfl⟩
  unfold withSource
  split
  · exact .inr (.inl ⟨by omega, _, rfl⟩)
  · exact .inr (.inr ⟨by assumption, rfl⟩)

theorem execUuid4_cases (s : State) :
    (∃ k, commandCause k ∧ execUuid4 s = .next (raised k s)) ∨
    (s.D.toNat + 36 ≤ s.params.memSize ∧
      ∃ r, r.length = 16 ∧ execUuid4 s = .next (stored (uuidRender (uuidForce r)) 36 s)) ∨
    (memRead s.mem s.A.toNat 16 = none ∧ execUuid4 s = .fault .unwrittenByte) := by
  unfold execUuid4 checkSource
  split
  · exact .inl ⟨.lengthError, by simp [commandCause], rfl⟩
  unfold checkDest
  split
  · exact .inl ⟨.boundsFault, by simp [commandCause], rfl⟩
  unfold withSource
  split
  · exact .inr (.inl ⟨by omega, _, memRead_length (by assumption), rfl⟩)
  · exact .inr (.inr ⟨by assumption, rfl⟩)

/-- The number a writing command leaves in `N` when it succeeds (R22). -/
def resultNumber (i : Instr) (s : State) : Nat :=
  match i with
  | .wrS64be | .wrU64be => s.D.toNat + 8
  | .rduBe | .rduLe | .rdS64be | .rdU64be | .wrxLe | .md5 | .sha1 | .sha256 | .uuid4 => writeLen i s

/-- THE INVERSION LEMMA: an outcome of a command is an error, a loaded value (of a reader), a byte sequence of the
command's write length stored where it fits below MEM_SIZE (by a writing command), or the stop on a byte of the read
extent that holds no value. -/
theorem exec_cases (i : Instr) (s : State) :
    (∃ k, commandCause k ∧ exec i s = .next (raised k s)) ∨
    (writeLen i s = 0 ∧ ∃ p, exec i s = .next (loaded s p)) ∨
    (0 < writeLen i s ∧ s.D.toNat + writeLen i s ≤ s.params.memSize ∧
      ∃ out, out.length = writeLen i s ∧ exec i s = .next (stored out (resultNumber i s) s)) ∨
    (memRead s.mem s.A.toNat (readLen i s) = none ∧ exec i s = .fault .unwrittenByte) := by
  cases i
  case rduBe => exact (readRange_cases beVal s).imp id (.imp (⟨rfl, ·⟩) .inr)
  case rduLe => exact (readRange_cases leVal s).imp id (.imp (⟨rfl, ·⟩) .inr)
  case rdS64be => exact (readFixed_cases (fun W u => sext W (sval 64 u)) s).imp id (.imp (⟨rfl, ·⟩) .inr)
  case rdU64be => exact (readFixed_cases zext s).imp id (.imp (⟨rfl, ·⟩) .inr)
  case wrxLe =>
    rcases execWrxLe_cases s with h | ⟨hd, h⟩
    · exact .inl h
    · have := extendedLen_ge s.X.toNat
      exact .inr (.inr (.inl ⟨by simp only [writeLen]; omega, hd, _, by simp [writeLen], h⟩))
  case wrS64be =>
    rcases writeFixed_cases (-(2 ^ 63)) (2 ^ 63 - 1) s with h | ⟨hd, u, h⟩
    · exact .inl h
    · exact .inr (.inr (.inl ⟨by simp [writeLen], hd, _, by simp [writeLen], h⟩))
  case wrU64be =>
    rcases writeFixed_cases 0 (2 ^ 64 - 1) s with h | ⟨hd, u, h⟩
    · exact .inl h
    · exact .inr (.inr (.inl ⟨by simp [writeLen], hd, _, by simp [writeLen], h⟩))
  case md5 =>
    rcases digestCmd_cases md5Hash 16 s with h | ⟨hd, u, h⟩ | h
    · exact .inl h
    · exact .inr (.inr (.inl ⟨by simp [writeLen], hd, _, by simp [writeLen], h⟩))
    · exact .inr (.inr (.inr h))
  case sha1 =>
    rcases digestCmd_cases sha1Hash 20 s with h | ⟨hd, u, h⟩ | h
    · exact .inl h
    · exact .inr (.inr (.inl ⟨by simp [writeLen], hd, _, by simp [writeLen], h⟩))
    · exact .inr (.inr (.inr h))
  case sha256 =>
    rcases digestCmd_cases sha256Hash 32 s with h | ⟨hd, u, h⟩ | h
    · exact .inl h
    · exact .inr (.inr (.inl ⟨by simp [writeLen], hd, _, by simp [writeLen], h⟩))
    · exact .inr (.inr (.inr h))
  case uuid4 =>
    rcases execUuid4_cases s with h | ⟨hd, r, hr, h⟩ | h
    · exact .inl h
    · exact .inr (.inr (.inl ⟨by simp [writeLen], hd, _, by simp [writeLen, length_uuidRender, hr], h⟩))
    · exact .inr (.inr (.inr h))

/-! ## The host's moves -/

theorem hostMove_refused {m : HostMove} {s : State} (h : moveAllowed s.params m = false) :
    hostMove m s = .refused .moveNotAllowed := by
  simp [hostMove, h]

/-- An allowed move is what its arm says. -/
theorem hostMove_hwr {r : Nat} {v : Int} {s : State} (h : moveAllowed s.params (.hwr r v) = true) :
    hostMove (.hwr r v) s = writeReg r v s := by
  simp [hostMove, h]

theorem hostMove_hrd {r : Nat} {s : State} (h : r ≤ 6) :
    hostMove (.hrd r) s = .next { s with replies := s.replies ++ [readReg r s] } := by
  simp [hostMove, moveAllowed, h, reply]

theorem hostMove_hsb {a v : Nat} {s : State} (ha : a < s.params.memSize) (hv : v < 256) :
    hostMove (.hsb a v) s = .next { s with mem := memPut s.mem a (BitVec.ofNat 8 v) } := by
  simp [hostMove, moveAllowed, ha, hv]

theorem hostMove_hlb {a : Nat} {s : State} (ha : a < s.params.memSize) : hostMove (.hlb a) s = loadByte a s := by
  simp [hostMove, moveAllowed, ha]

theorem hostMove_reset (s : State) : hostMove .reset s = .next (resetMove s) := rfl

theorem hostMove_cmd (c : Byte) (s : State) : hostMove (.cmd c) s = runCommand c s := rfl

theorem runCommand_ok {c : Byte} {i : Instr} (h : decode c = .ok i) (s : State) : runCommand c s = exec i s := by
  simp [runCommand, h]

theorem runCommand_error {c : Byte} {e : DecodeError} (h : decode c = .error e) (s : State) :
    runCommand c s = .next (raised .illegalCommand s) := by
  simp [runCommand, h]; rfl

/-- A command word runs a command or raises `IllegalCommand`. -/
theorem runCommand_cases (c : Byte) (s : State) :
    (∃ i, decode c = .ok i ∧ runCommand c s = exec i s) ∨ runCommand c s = .next (raised .illegalCommand s) := by
  rcases decode_cases c with ⟨i, h⟩ | h
  · exact .inl ⟨i, h, runCommand_ok h s⟩
  · exact .inr (runCommand_error h s)

end Sys2Proof.Machine
end

