-- ==== Sys2Proof/Laws/PerInstr.lean ====
section
/-! SUPPORT. What holds of every command as syntax, one lemma a constructor (LAWS.json). -/

namespace Sys2Proof.Laws.DecodeEncode

/-- The word of the command decodes to it, and is not reserved (30_encoding R71, R73). -/
def Statement (i : Instr) : Prop := decode (encode i) = .ok i ∧ wellFormedWord (encode i) = true

theorem rduBe : Statement .rduBe := by unfold Statement; decide
theorem rduLe : Statement .rduLe := by unfold Statement; decide
theorem rdS64be : Statement .rdS64be := by unfold Statement; decide
theorem rdU64be : Statement .rdU64be := by unfold Statement; decide
theorem wrxLe : Statement .wrxLe := by unfold Statement; decide
theorem wrS64be : Statement .wrS64be := by unfold Statement; decide
theorem wrU64be : Statement .wrU64be := by unfold Statement; decide
theorem md5 : Statement .md5 := by unfold Statement; decide
theorem sha1 : Statement .sha1 := by unfold Statement; decide
theorem sha256 : Statement .sha256 := by unfold Statement; decide
theorem uuid4 : Statement .uuid4 := by unfold Statement; decide

end Sys2Proof.Laws.DecodeEncode
end

