-- ==== Sys2Proof/Tests/Slice0.lean ====
section
/-! SUPPORT. Tests of one step each, their expected results the vectors of 95_test_vectors.md (named V.., S..) or the
rule named, and the witnesses: for every obligation with hypotheses, a concrete state and operands that meet them. -/

namespace Sys2Proof.Tests

open Sys2Proof.Machine

set_option Elab.async false

/-! ## Helpers -/

/-- A memory that holds `bytes` from offset `a` on and nothing else. -/
def bytesAt (a : Nat) : List Nat → Memory
  | [] => []
  | v :: vs => (a, BitVec.ofNat 8 v) :: bytesAt (a + 1) vs

/-- A small state: the parameters of the test vectors, `N = 0x77` and `CAUSE = 0`. -/
def small (a b d x : Nat) (m : Memory) : State :=
  { State.reset with
    A := BitVec.ofNat 32 a
    B := BitVec.ofNat 32 b
    D := BitVec.ofNat 32 d
    N := 0x77#32
    X := BitVec.ofNat _ x
    mem := m }

/-- A small state with a script. -/
def scripted (moves : List HostMove) : State := { small 1 2 3 4 (bytesAt 0 [5, 6]) with script := moves }

/-- The outcome is a next state that passes `p`. -/
def nextIs (o : Host.Outcome State Fault Refusal) (p : State → Bool) : Bool :=
  match o with
  | .next t => p t
  | .fault _ => false
  | .refused _ => false

theorem next_of_check {o : Host.Outcome State Fault Refusal} {p : State → Bool} (h : nextIs o p = true) :
    ∃ t, o = .next t ∧ p t = true := by
  unfold nextIs at h
  split at h
  · exact ⟨_, rfl, h⟩
  · cases h
  · cases h

/-- `CAUSE`, `X` and `N` after. -/
def ends (cause x n : Nat) (t : State) : Bool := t.cause.toNat == cause && t.X.toNat == x && t.N.toNat == n

/-- `M[a..)` holds `bytes`. -/
def holds (a : Nat) (bytes : List Nat) (t : State) : Bool :=
  (memRead t.mem a bytes.length).map (·.map BitVec.toNat) == some bytes

/-- The outcome is this stop. -/
def refusedMove (o : Host.Outcome State Fault Refusal) : Bool :=
  match o with
  | .refused .moveNotAllowed => true
  | _ => false

/-- The outcome is the stop on a byte that holds no value. -/
def unwritten (o : Host.Outcome State Fault Refusal) : Bool :=
  match o with
  | .fault .unwrittenByte => true
  | _ => false

/-! ## Encoding: every command's word, written bit by bit from the binary column of R71 -/

theorem test_word_rdu_be : decode 0b00010000#8 = .ok .rduBe ∧ encode .rduBe = 0b00010000#8 := ⟨rfl, rfl⟩
theorem test_word_rdu_le : decode 0b00010001#8 = .ok .rduLe ∧ encode .rduLe = 0b00010001#8 := ⟨rfl, rfl⟩
theorem test_word_rd_s64be : decode 0b00010010#8 = .ok .rdS64be ∧ encode .rdS64be = 0b00010010#8 := ⟨rfl, rfl⟩
theorem test_word_rd_u64be : decode 0b00010011#8 = .ok .rdU64be ∧ encode .rdU64be = 0b00010011#8 := ⟨rfl, rfl⟩
theorem test_word_wrx_le : decode 0b00100000#8 = .ok .wrxLe ∧ encode .wrxLe = 0b00100000#8 := ⟨rfl, rfl⟩
theorem test_word_wr_s64be : decode 0b00100010#8 = .ok .wrS64be ∧ encode .wrS64be = 0b00100010#8 := ⟨rfl, rfl⟩
theorem test_word_wr_u64be : decode 0b00100011#8 = .ok .wrU64be ∧ encode .wrU64be = 0b00100011#8 := ⟨rfl, rfl⟩
theorem test_word_md5 : decode 0b00110000#8 = .ok .md5 ∧ encode .md5 = 0b00110000#8 := ⟨rfl, rfl⟩
theorem test_word_sha1 : decode 0b00110001#8 = .ok .sha1 ∧ encode .sha1 = 0b00110001#8 := ⟨rfl, rfl⟩
theorem test_word_sha256 : decode 0b00110010#8 = .ok .sha256 ∧ encode .sha256 = 0b00110010#8 := ⟨rfl, rfl⟩
theorem test_word_uuid4 : decode 0b01000000#8 = .ok .uuid4 ∧ encode .uuid4 = 0b01000000#8 := ⟨rfl, rfl⟩

theorem test_table_word : decodeTableWord 8 0x32 = some .sha256 ∧ decodeTableWord 8 0x21 = none := by decide

/-! ## Ill-formed terms the checks refuse -/

/-- R73 and 95 section 6: reserved words, at both ends of every range of R73, are ill formed and not decoded. -/
theorem test_wellformed_refuses_reserved :
    ∀ c ∈ [0x00#8, 0x0F#8, 0x14#8, 0x1F#8, 0x21#8, 0x24#8, 0x2F#8, 0x33#8, 0x3F#8, 0x41#8, 0x80#8, 0xFF#8],
      wellFormedWord c = false ∧ decodeTableWord 8 c.toNat = none := by decide

/-- R71: the words of the eleven commands are well formed. -/
theorem test_wellformed_admits_table :
    ∀ c ∈ [0x10#8, 0x11#8, 0x12#8, 0x13#8, 0x20#8, 0x22#8, 0x23#8, 0x30#8, 0x31#8, 0x32#8, 0x40#8],
      wellFormedWord c = true := by decide

/-- R76, 93 U8: one ill-formed move for each check of the host's port. -/
theorem test_moves_refused :
    ∀ m ∈ [HostMove.hwr 7 0, .hwr 0 (2 ^ 32), .hwr 1 (-1), .hwr 2 (2 ^ 32), .hwr 4 (2 ^ 128), .hwr 4 (-(2 ^ 127) - 1),
      .hwr 6 256, .hrd 7, .hsb 4096 0, .hsb 0 256, .hlb 4096], refusedMove (step (scripted [m])) = true := by
  decide +kernel

/-! ## One step of each command -/

/-- V1 and V14. -/
theorem test_rdu_be :
    nextIs (exec .rduBe (small 0x100 0x103 0 0x5A5A (bytesAt 0x100 [1, 2, 3]))) (ends 0 0x010203 0x77) = true := by
  decide +kernel
theorem test_rdu_be_precision :
    nextIs (exec .rduBe (small 0x200 0x211 0 0x5A5A (bytesAt 0x200 (1 :: List.replicate 16 0)))) (ends 6 0x5A5A 0x77)
      = true := by decide +kernel

/-- V10 and V17. -/
theorem test_rdu_le :
    nextIs (exec .rduLe (small 0x30 0x39 0 0x5A5A (bytesAt 0x30 [1, 2, 3, 4, 5, 6, 7, 8, 9])))
      (ends 0 166599134359138271745 0x77) = true := by decide +kernel
theorem test_rdu_le_trailing_zero :
    nextIs (exec .rduLe (small 0x200 0x211 0 0x5A5A (bytesAt 0x200 (List.replicate 16 255 ++ [0]))))
      (ends 0 (2 ^ 128 - 1) 0x77) = true := by decide +kernel

/-- V31 and V39. -/
theorem test_rd_s64be :
    nextIs (exec .rdS64be (small 0x40 0 0 0 (bytesAt 0x40 [0x80, 0, 0, 0, 0, 0, 0, 0])))
      (ends 0 0xFFFFFFFFFFFFFFFF8000000000000000 0x77) = true := by decide +kernel
theorem test_rd_u64be :
    nextIs (exec .rdU64be (small 0x40 0 0 0 (bytesAt 0x40 [0xFE, 0xDC, 0xBA, 0x98, 0x76, 0x54, 0x32, 0x10])))
      (ends 0 0xFEDCBA9876543210 0x77) = true := by decide +kernel

/-- V52 and V56d. -/
theorem test_wrx_le :
    nextIs (exec .wrxLe (small 0 0 0x80 (2 ^ 72) []))
      (fun t => ends 0 (2 ^ 72) 10 t && holds 0x80 [0, 0, 0, 0, 0, 0, 0, 0, 0, 1] t) = true := by decide +kernel
theorem test_wrx_le_bounds :
    nextIs (exec .wrxLe (small 0 0 4088 (2 ^ 64) [])) (fun t => ends 5 (2 ^ 64) 0x77 t && t.mem.isEmpty) = true := by
  decide +kernel

/-- V68 and V76. -/
theorem test_wr_s64be :
    nextIs (exec .wrS64be (small 0 0 0x40 0xFFFFFFFFFFFFFFFFFEDCBA9876543211 []))
      (fun t => ends 0 0xFFFFFFFFFFFFFFFFFEDCBA9876543211 0x48 t
        && holds 0x40 [0xFE, 0xDC, 0xBA, 0x98, 0x76, 0x54, 0x32, 0x11] t) = true := by decide +kernel
theorem test_wr_s64be_range_first :
    nextIs (exec .wrS64be (small 0 0 4089 (2 ^ 63) [])) (ends 1 (2 ^ 63) 0x77) = true := by decide +kernel

/-- V78 and V80. -/
theorem test_wr_u64be :
    nextIs (exec .wrU64be (small 0 0 0 0x0123456789ABCDEF []))
      (fun t => ends 0 0x0123456789ABCDEF 8 t && holds 0 [0x01, 0x23, 0x45, 0x67, 0x89, 0xAB, 0xCD, 0xEF] t) = true := by
  decide +kernel
theorem test_wr_u64be_all_ones :
    nextIs (exec .wrU64be (small 0 0 0 (2 ^ 128 - 1) [])) (ends 1 (2 ^ 128 - 1) 0x77) = true := by decide +kernel

/-- The MD5 digest of `abc` (95 section 4.3). -/
theorem test_md5 :
    nextIs (exec .md5 (small 0 3 0x100 0 (bytesAt 0 [0x61, 0x62, 0x63])))
      (fun t => ends 0 0 16 t && holds 0x100
        [0x90, 0x01, 0x50, 0x98, 0x3C, 0xD2, 0x4F, 0xB0, 0xD6, 0x96, 0x3F, 0x7D, 0x28, 0xE1, 0x7F, 0x72] t) = true := by
  decide +kernel

/-- The SHA-1 digest of the 56-byte counting message, which takes two blocks (95 section 4.2). -/
theorem test_sha1 :
    nextIs (exec .sha1 (small 0x200 0x238 0x100 0 (bytesAt 0x200 (List.range 56))))
      (fun t => ends 0 0 20 t && holds 0x100
        [0x63, 0x6E, 0x2E, 0xC6, 0x98, 0xDA, 0xC9, 0x03, 0x49, 0x8E, 0x64, 0x8B, 0xD2, 0xF3, 0xAF, 0x64, 0x1D, 0x3C, 0x88,
          0xCB] t) = true := by decide +kernel

/-- S2, with the digest written over the input (20_memory R58). -/
theorem test_sha256 :
    nextIs (exec .sha256 (small 0 3 0 0 (bytesAt 0 [0x61, 0x62, 0x63])))
      (fun t => ends 0 0 32 t && holds 0
        [0xBA, 0x78, 0x16, 0xBF, 0x8F, 0x01, 0xCF, 0xEA, 0x41, 0x41, 0x40, 0xDE, 0x5D, 0xAE, 0x22, 0x23,
          0xB0, 0x03, 0x61, 0xA3, 0x96, 0x17, 0x7A, 0x9C, 0xB4, 0x10, 0xFF, 0x61, 0xF2, 0x00, 0x15, 0xAD] t) = true := by
  decide +kernel

/-- V106 and V107: the order of the checks of the hash commands. -/
theorem test_hash_check_order :
    ∀ i ∈ [Instr.md5, .sha1, .sha256],
      nextIs (exec i (small 5 4 5000 0 [])) (ends 7 0 0x77) = true ∧
      nextIs (exec i (small 0 5000 5000 0 [])) (ends 2 0 0x77) = true := by decide +kernel

/-- V93, and V90 written over its own input. -/
theorem test_uuid4 :
    nextIs (exec .uuid4 (small 0 0 0x40 0 (bytesAt 0
        [0x12, 0x34, 0x56, 0x78, 0x9A, 0xBC, 0xDE, 0xF0, 0x0F, 0xED, 0xCB, 0xA9, 0x87, 0x65, 0x43, 0x21])))
      (fun t => ends 0 0 36 t
        && holds 0x40 ("12345678-9abc-4ef0-8fed-cba987654321".toList.map Char.toNat) t) = true := by decide +kernel
theorem test_uuid4_overlap :
    nextIs (exec .uuid4 (small 0 0 0 0 (bytesAt 0 (List.range 16 ++ List.replicate 24 0xEE))))
      (fun t => ends 0 0 36 t && holds 0 ("00010203-0405-4607-8809-0a0b0c0d0e0f".toList.map Char.toNat
        ++ [0xEE, 0xEE, 0xEE, 0xEE]) t) = true := by decide +kernel

/-- R73 in program 7.3: the reserved word 0x21. -/
theorem test_illegal_word :
    nextIs (runCommand 0x21#8 (small 1 0 5000 9 [])) (ends 4 9 0x77) = true := by decide +kernel

/-! ## Witnesses: each obligation's hypotheses, met by a concrete state and operands -/

theorem witness_ReservedWordRaisesIllegalCommand :
    ∀ c ∈ [0x00#8, 0x0F#8, 0x14#8, 0x1F#8, 0x21#8, 0x24#8, 0x2F#8, 0x33#8, 0x3F#8, 0x41#8, 0xFF#8],
      reservedWord c = true ∧ nextIs (runCommand c State.reset) (fun t => t.cause == 4#8) = true := by decide +kernel

theorem witness_StepRunsDecodedCommand :
    (scripted [.cmd 0x10#8, .reset]).script = .cmd 0x10#8 :: [.reset] ∧ decode 0x10#8 = .ok .rduBe ∧
    (scripted [.cmd 0x00#8]).script = .cmd 0x00#8 :: [] ∧ decode 0x00#8 = .error (.reserved 0x00#8) :=
  ⟨rfl, rfl, rfl, rfl⟩

theorem witness_FetchWordRunsNextAndEmptyScriptIdles :
    State.reset.script = [] ∧ (State.reset.withFetchWord 8 0x10).script = [.cmd 0x10#8] ∧
    nextIs (step (State.reset.withFetchWord 8 0x10)) (ends 0 0 0) = true := by decide +kernel

theorem witness_ByteSequenceValuesAreSums :
    0 < 256 ^ 0 ∧ beBytes 0 0 = [] ∧ 0x1234 < 256 ^ 2 ∧ beBytes 0x1234 2 = [0x12#8, 0x34#8] ∧ 256 ^ 2 - 1 < 256 ^ 2 ∧
    leBytes 0x1234 3 = [0x34#8, 0x12#8, 0x00#8] := by decide +kernel

/-- 00_scope R8 at the ends of the signed range of 128 bits. -/
theorem witness_FixedWidthValues :
    0 < 128 ∧ 2 ^ 127 < 2 ^ 128 ∧ sval 128 (2 ^ 127) = -(2 ^ 127) ∧ sval 128 (2 ^ 127 - 1) = 2 ^ 127 - 1 ∧
    (-(2 ^ (128 - 1)) : Int) ≤ -(2 ^ 127) ∧ (-(2 ^ 127) : Int) < 2 ^ (128 - 1) ∧ byteLen 0 = 0 ∧ byteLen 255 = 1 ∧
    byteLen 256 = 2 := by decide +kernel

theorem witness_WordOperationsFollowArithmetic :
    0 < 1 ∧ 1 < 32 ∧ rotl32 0x80000001#32 1 = 3#32 ∧ 0 < 31 ∧ 31 < 32 ∧ rotl32 0x80000001#32 31 = 0xC0000000#32 ∧
    shr32 0x80000001#32 31 = 1#32 := by decide +kernel

theorem witness_MemoryPrimitives :
    memRead (memWrite [] 4094 [1#8, 2#8]) 4094 2 = some [1#8, 2#8] ∧ memRead (memWrite [] 4094 [1#8, 2#8]) 4093 2 = none ∧
    memRead [] 7 0 = some [] := by decide +kernel

/-- Two ways of building one memory. -/
theorem witness_CanonicalMemoryIsItsContents :
    Memory.wf (memPut (memPut [] 3 1#8) 1 2#8) = true ∧ Memory.wf (memPut (memPut [] 1 2#8) 3 1#8) = true ∧
    ∀ a, memByte (memPut (memPut [] 3 1#8) 1 2#8) a = memByte (memPut (memPut [] 1 2#8) 3 1#8) a :=
  ⟨rfl, rfl, fun _ => rfl⟩

/-- V20, V21, V14, V12 and V3: each clause at the edge of its range. -/
theorem witness_RduBeLoadsBigEndianValue :
    (small 5 4 0 9 []).B.toNat < (small 5 4 0 9 []).A.toNat ∧
    ((small 0 4097 0 9 []).A.toNat ≤ (small 0 4097 0 9 []).B.toNat ∧
      (small 0 4097 0 9 []).params.memSize < (small 0 4097 0 9 []).B.toNat) ∧
    (rangeReady (small 4079 4096 0 9 (bytesAt 4079 (1 :: List.replicate 16 0))) (1#8 :: List.replicate 16 0#8) ∧
      2 ^ State.reset.params.xw ≤ beVal (1#8 :: List.replicate 16 0#8)) ∧
    (rangeReady (small 4080 4096 0 9 (bytesAt 4080 (List.replicate 16 255))) (List.replicate 16 255#8) ∧
      beVal (List.replicate 16 255#8) < 2 ^ State.reset.params.xw) ∧
    (rangeReady (small 4096 4096 0 9 []) [] ∧ beVal [] = 0) := by decide +kernel

/-- V20, V21, V15, V13 and V4. -/
theorem witness_RduLeLoadsLittleEndianValue :
    (small 5 4 0 9 []).B.toNat < (small 5 4 0 9 []).A.toNat ∧
    (rangeReady (small 4079 4096 0 9 (bytesAt 4079 (List.replicate 16 0 ++ [1]))) (List.replicate 16 0#8 ++ [1#8]) ∧
      2 ^ State.reset.params.xw ≤ leVal (List.replicate 16 0#8 ++ [1#8])) ∧
    (rangeReady (small 4080 4096 0 9 (bytesAt 4080 (List.replicate 16 255))) (List.replicate 16 255#8) ∧
      leVal (List.replicate 16 255#8) < 2 ^ State.reset.params.xw) ∧
    (rangeReady (small 4096 4096 0 9 []) [] ∧ leVal [] = 0) := by decide +kernel

/-- V40 and V41. -/
theorem witness_RdS64beLoadsSignExtended :
    sourceReady 8 (small 4088 0 0 7 (bytesAt 4088 [0x80, 0, 0, 0, 0, 0, 0, 0])) [0x80#8, 0#8, 0#8, 0#8, 0#8, 0#8, 0#8, 0#8] ∧
    ¬ beVal [0x80#8, 0#8, 0#8, 0#8, 0#8, 0#8, 0#8, 0#8] < 2 ^ 63 ∧
    beVal [0x7F#8, 255#8, 255#8, 255#8, 255#8, 255#8, 255#8, 255#8] < 2 ^ 63 ∧
    (small 4089 0 0 7 []).params.memSize < (small 4089 0 0 7 []).A.toNat + 8 := by decide +kernel

/-- V40 and V43. -/
theorem witness_RdU64beLoadsZeroExtended :
    sourceReady 8 (small 4088 0 0 7 (bytesAt 4088 [0x80, 0, 0, 0, 0, 0, 0, 0])) [0x80#8, 0#8, 0#8, 0#8, 0#8, 0#8, 0#8, 0#8] ∧
    (small 0xFFFFFFFF 0 0 7 []).params.memSize < (small 0xFFFFFFFF 0 0 7 []).A.toNat + 8 := by decide +kernel

/-- Every reader runs, and can fail. -/
theorem witness_ReadersChangeOnlyXAndCause :
    ∀ i ∈ [Instr.rduBe, .rduLe, .rdS64be, .rdU64be],
      (∃ t, exec i (small 0 8 0 7 (bytesAt 0 [1, 2, 3, 4, 5, 6, 7, 8])) = .next t ∧ (t.cause == 0#8) = true) ∧
      ∃ t, exec i (small 4097 4096 0 7 []) = .next t ∧ (t.cause != 0#8) = true := by
  intro i hi
  refine ⟨next_of_check ?_, next_of_check ?_⟩ <;> revert i <;> decide +kernel

/-- V1 and V2. -/
theorem witness_MirrorLaw :
    (small 0x200 0x203 0 0 (bytesAt 0x200 [3, 2, 1])).params = (small 0x100 0x103 0 0 []).params ∧
    rangeReady (small 0x100 0x103 0 0 (bytesAt 0x100 [1, 2, 3])) [1#8, 2#8, 3#8] ∧
    rangeReady (small 0x200 0x203 0 0 (bytesAt 0x200 [3, 2, 1])) [1#8, 2#8, 3#8].reverse := by decide +kernel

/-- V32 with `B = A + 8`. -/
theorem witness_FixedAndRangeReadersAgree :
    sourceReady 8 (small 0x40 0x48 0 0 (bytesAt 0x40 [0x7F, 255, 255, 255, 255, 255, 255, 255]))
      [0x7F#8, 255#8, 255#8, 255#8, 255#8, 255#8, 255#8, 255#8] ∧
    (small 0x40 0x48 0 0 []).B.toNat = (small 0x40 0x48 0 0 []).A.toNat + 8 ∧
    beVal [0x7F#8, 255#8, 255#8, 255#8, 255#8, 255#8, 255#8, 255#8] < 2 ^ 63 := by decide +kernel

/-- V56c and V56d: nine digits that just fit and that do not; V45: no digit. -/
theorem witness_WrxLeWritesDigits :
    ((small 0 0 4087 (2 ^ 64) []).X.toNat < 256 ^ 9 ∧ (∀ j, j < 9 → 256 ^ j ≤ (small 0 0 4087 (2 ^ 64) []).X.toNat) ∧
      (small 0 0 4087 (2 ^ 64) []).D.toNat + max 8 9 ≤ (small 0 0 4087 (2 ^ 64) []).params.memSize) ∧
    (small 0 0 4088 (2 ^ 64) []).params.memSize < (small 0 0 4088 (2 ^ 64) []).D.toNat + max 8 9 ∧
    ((small 0 0 4088 0 []).X.toNat < 256 ^ 0 ∧ (∀ j, j < 0 → 256 ^ j ≤ (small 0 0 4088 0 []).X.toNat) ∧
      (small 0 0 4088 0 []).D.toNat + max 8 0 ≤ (small 0 0 4088 0 []).params.memSize) := by decide +kernel

/-- V69, V70, V75, V74, and the ends of the range (V65, V66). -/
theorem witness_WrS64beWritesBigEndian :
    (2 ^ 63 - 1 < (small 0 0 0x40 (2 ^ 63) []).X.toInt) ∧
    ((small 0 0 0x40 0xFFFFFFFFFFFFFFFF7FFFFFFFFFFFFFFF []).X.toInt < -(2 ^ 63)) ∧
    ((small 0 0 4089 1 []).params.memSize < (small 0 0 4089 1 []).D.toNat + 8) ∧ destReady 8 (small 0 0 4088 1 []) ∧
    (-(2 ^ 63) ≤ (small 0 0 0 0xFFFFFFFFFFFFFFFF8000000000000000 []).X.toInt ∧
      (small 0 0 0 0xFFFFFFFFFFFFFFFF8000000000000000 []).X.toInt ≤ 2 ^ 63 - 1) ∧
    (-(2 ^ 63) ≤ (small 0 0 0 (2 ^ 63 - 1) []).X.toInt ∧ (small 0 0 0 (2 ^ 63 - 1) []).X.toInt ≤ 2 ^ 63 - 1) := by
  decide +kernel

/-- V60, V61, V82, V81, and the ends of the range (V57, V58). -/
theorem witness_WrU64beWritesBigEndian :
    ((small 0 0 0 (2 ^ 128 - 1) []).X.toInt < 0) ∧ (2 ^ 64 - 1 < (small 0 0 0 (2 ^ 64) []).X.toInt) ∧
    ((small 0 0 4090 5 []).params.memSize < (small 0 0 4090 5 []).D.toNat + 8) ∧ destReady 8 (small 0 0 4088 5 []) ∧
    (0 ≤ (small 0 0 0 0 []).X.toInt ∧ (small 0 0 0 0 []).X.toInt ≤ 2 ^ 64 - 1) ∧
    (0 ≤ (small 0 0 0 (2 ^ 64 - 1) []).X.toInt ∧ (small 0 0 0 (2 ^ 64 - 1) []).X.toInt ≤ 2 ^ 64 - 1) := by
  decide +kernel

/-- The validator bit tests of 95 section 3.3: V65, V59 and V61. -/
theorem witness_ValidatorIsTheRangeCheck :
    72 ≤ 128 ∧ signedOk 128 0xFFFFFFFFFFFFFFFF8000000000000000#128 = true ∧
    unsignedOk 128 0xFFFFFFFFFFFFFFFF8000000000000000#128 = false ∧ signedOk 128 0x8000000000000000#128 = false ∧
    unsignedOk 128 0x8000000000000000#128 = true ∧ signedOk 128 0x10000000000000000#128 = false ∧
    unsignedOk 128 0x10000000000000000#128 = false := by decide +kernel

/-- Every writing command runs with its length, and can fail. -/
theorem witness_WritingCommandsFrame :
    ∀ p ∈ [(Instr.wrxLe, max 8 (byteLen 1)), (.wrS64be, 8), (.wrU64be, 8), (.md5, 16), (.sha1, 20), (.sha256, 32),
      (.uuid4, 36)],
      (∃ t, exec p.1 (small 0 0 (4096 - p.2) 1 (bytesAt 0 (List.range 16))) = .next t ∧
        (t.cause == 0#8 && writeLen p.1 (small 0 0 0 1 []) == p.2) = true) ∧
      ∃ t, exec p.1 (small 0 0 (4097 - p.2) 1 (bytesAt 0 (List.range 16))) = .next t ∧ (t.cause == 5#8) = true := by
  intro p hp
  refine ⟨next_of_check ?_, next_of_check ?_⟩ <;> revert p <;> decide +kernel

theorem witness_SignedRoundTrip :
    (-(2 ^ 63) : Int) ≤ -(2 ^ 63) ∧ (2 ^ 63 - 1 : Int) ≤ 2 ^ 63 - 1 ∧ (4088#32).toNat + 8 ≤ State.reset.params.memSize := by
  decide +kernel

theorem witness_UnsignedRoundTrip : 2 ^ 64 - 1 ≤ 2 ^ 64 - 1 ∧ (4088#32).toNat + 8 ≤ State.reset.params.memSize := by
  decide +kernel

theorem witness_ExtendedRoundTrip :
    (small 0 0 4080 (2 ^ 128 - 1) []).D.toNat + max 8 (byteLen (small 0 0 4080 (2 ^ 128 - 1) []).X.toNat) ≤
      (small 0 0 4080 (2 ^ 128 - 1) []).params.memSize := by decide +kernel

theorem witness_WritersAgree :
    destReady 8 (small 0 0 4088 (2 ^ 63 - 1) []) ∧ 0 ≤ (small 0 0 4088 (2 ^ 63 - 1) []).X.toInt ∧
    (small 0 0 4088 (2 ^ 63 - 1) []).X.toInt ≤ 2 ^ 63 - 1 ∧ destReady 8 (small 0 0 4087 (2 ^ 64 - 1) []) ∧
    (small 0 0 4087 (2 ^ 64 - 1) []).X.toNat ≤ 2 ^ 64 - 1 := by decide +kernel

/-- V100, V101, V105, V104 for each hash command. -/
theorem witness_DigestCommandTemplate :
    (small 5 4 0 0 []).B.toNat < (small 5 4 0 0 []).A.toNat ∧
    ((small 0 4097 0 0 []).A.toNat ≤ (small 0 4097 0 0 []).B.toNat ∧
      (small 0 4097 0 0 []).params.memSize < (small 0 4097 0 0 []).B.toNat) ∧
    (∀ dl ∈ [16, 20, 32], (small 0 0 (4097 - dl) 0 []).params.memSize < (small 0 0 (4097 - dl) 0 []).D.toNat + dl) ∧
    ∀ dl ∈ [16, 20, 32], rangeReady (small 4096 4096 (4096 - dl) 0 []) [] ∧ destReady dl (small 4096 4096 (4096 - dl) 0 []) := by
  decide +kernel

theorem witness_OverlapDoesNotMatter :
    ∀ i ∈ [Instr.md5, .sha1, .sha256, .uuid4],
      (∃ t, exec i (small 0 16 0 0 (bytesAt 0 (List.range 16))) = .next t ∧ (t.cause == 0#8) = true) ∧
      ∃ t, exec i { small 0 16 0 0 (bytesAt 0 (List.range 16)) with D := 4060#32 } = .next t ∧ (t.cause == 0#8) = true := by
  intro i hi
  refine ⟨next_of_check ?_, next_of_check ?_⟩ <;> revert i <;> decide +kernel

/-- 95 section 4.1: `L = 55` and `L = 56`. -/
theorem witness_PaddingShape :
    8 * (List.replicate 55 0#8).length < 2 ^ 64 ∧ (pad beBytes (List.replicate 55 0#8)).length = 64 ∧
    8 * (List.replicate 56 0#8).length < 2 ^ 64 ∧ (pad leBytes (List.replicate 56 0#8)).length = 128 := by decide +kernel

theorem witness_BlockCount :
    (beBytes = beBytes ∨ beBytes = leBytes) ∧ (leBytes = beBytes ∨ leBytes = leBytes) ∧
    (blocksOf (pad leBytes (List.replicate 56 0#8))).map List.length = [64, 64] :=
  ⟨.inl rfl, .inr rfl, by decide +kernel⟩

/-- 95 section 4.5: after the last step for `abc`, for each engine. -/
theorem witness_ChainingIsSequential :
    md5Steps (blockWords leVal (pad leBytes [0x61#8, 0x62#8, 0x63#8])) md5Iv 64 =
      ⟨0x310ade8f#32, 0xc08226b3#32, 0xe484b9d8#32, 0x624d8cb2#32⟩ ∧
    sha1Steps (sha1Schedule (pad beBytes [0x61#8, 0x62#8, 0x63#8])) sha1Iv 80 =
      ⟨0x42541b35#32, 0x5738d5e1#32, 0x21834873#32, 0x681e6df6#32, 0xd8fdf6ad#32⟩ ∧
    (sha256Steps (sha256Schedule (pad beBytes [0x61#8, 0x62#8, 0x63#8])) sha256Iv 64).a = 0x506e3058#32 := by
  decide +kernel

/-- 95 section 4.5: the schedule of `abc`. -/
theorem witness_Sha1ScheduleRecurrence :
    (pad beBytes [0x61#8, 0x62#8, 0x63#8]).length = 64 ∧
    (sha1Schedule (pad beBytes [0x61#8, 0x62#8, 0x63#8])).getD 0 0 = 0x61626380#32 ∧
    (sha1Schedule (pad beBytes [0x61#8, 0x62#8, 0x63#8])).getD 15 0 = 0x18#32 ∧
    (sha1Schedule (pad beBytes [0x61#8, 0x62#8, 0x63#8])).getD 16 0 = 0xc2c4c700#32 ∧
    (sha1Schedule (pad beBytes [0x61#8, 0x62#8, 0x63#8])).getD 79 0 = 0x822e0879#32 := by decide +kernel

theorem witness_Sha256ScheduleRecurrence :
    (pad beBytes [0x61#8, 0x62#8, 0x63#8]).length = 64 ∧
    (sha256Schedule (pad beBytes [0x61#8, 0x62#8, 0x63#8])).getD 17 0 = 0x000f0000#32 ∧
    (sha256Schedule (pad beBytes [0x61#8, 0x62#8, 0x63#8])).getD 63 0 = 0x12b1edeb#32 := by decide +kernel

/-- 95 section 4.5: step 0 of `abc`; the step numbers at the ends of the four ranges. -/
theorem witness_Sha1StepArithmetic :
    (∀ t ∈ [0, 19, 20, 39, 40, 59, 60, 79], t < 80) ∧ (sha1Step 0 0x61626380#32 sha1Iv).a = 0x0116fc33#32 := by decide +kernel

theorem witness_Sha256StepArithmetic :
    (sha256Step 0 0x61626380#32 sha256Iv).a = 0x5d6aebcd#32 ∧ (sha256Step 0 0x61626380#32 sha256Iv).e = 0xfa2a4622#32 ∧
    ∃ t1 t2 : Word, t1 + t2 = 0x5d6aebcd#32 ∧ sha256Iv.d + t1 = 0xfa2a4622#32 :=
  ⟨by decide +kernel, by decide +kernel, 0xfa2a4622#32 - sha256Iv.d, 0x5d6aebcd#32 - (0xfa2a4622#32 - sha256Iv.d),
    by decide +kernel, by decide +kernel⟩

/-- 95 section 4.5: step 0 of the empty message; the words of the block 00 01 ... 3F at both ends (R191). -/
theorem witness_Md5StepAndPermutation :
    (∀ t ∈ [0, 15, 16, 31, 32, 47, 48, 63], t < 64) ∧ (md5Step 0 0x00000080#32 md5Iv).b = 0xa5202774#32 ∧
    ((List.range 64).map (BitVec.ofNat 8)).length = 64 ∧
    (blockWords leVal ((List.range 64).map (BitVec.ofNat 8))).getD 0 0 = 0x03020100#32 ∧
    (blockWords leVal ((List.range 64).map (BitVec.ofNat 8))).getD 1 0 = 0x07060504#32 ∧
    (blockWords leVal ((List.range 64).map (BitVec.ofNat 8))).getD 15 0 = 0x3F3E3D3C#32 := by decide +kernel

/-- V111, V113 and V112. -/
theorem witness_Uuid4WritesString :
    ((small 4081 0 0 0 []).params.memSize < (small 4081 0 0 0 []).A.toNat + 16) ∧
    ((small 4080 0 4061 0 []).A.toNat + 16 ≤ (small 4080 0 4061 0 []).params.memSize ∧
      (small 4080 0 4061 0 []).params.memSize < (small 4080 0 4061 0 []).D.toNat + 36) ∧
    (sourceReady 16 (small 4080 0 4060 0 (bytesAt 4080 (List.replicate 16 0xA5))) (List.replicate 16 0xA5#8) ∧
      destReady 36 (small 4080 0 4060 0 (bytesAt 4080 (List.replicate 16 0xA5)))) := by decide +kernel

/-- V96's forced bytes. -/
theorem witness_ForceSetsVersionAndVariant :
    ([0#8, 0#8, 0#8, 0#8, 0#8, 0#8, 0x4B#8, 0#8, 0x7F#8, 0#8, 0#8, 0#8, 0#8, 0#8, 0#8, 0#8] : List Byte).length = 16 ∧
    (uuidForce [0#8, 0#8, 0#8, 0#8, 0#8, 0#8, 0x4B#8, 0#8, 0x7F#8, 0#8, 0#8, 0#8, 0#8, 0#8, 0#8, 0#8]).getD 8 0 = 0xBF#8 := by
  decide +kernel

/-- Byte 15 stands at the two last characters, byte 4 after the first hyphen. -/
theorem witness_RenderPlacesDigits :
    ((List.range 16).map (BitVec.ofNat 8)).length = 16 ∧ 15 < 16 ∧
    34 = 2 * 15 + (if 15 < 4 then 0 else if 15 < 6 then 1 else if 15 < 8 then 2 else if 15 < 10 then 3 else 4) ∧
    ((uuidRender ((List.range 16).map (BitVec.ofNat 8))).getD 35 0).toNat = 0x66 ∧
    ((uuidRender ((List.range 16).map (BitVec.ofNat 8))).getD 10 0).toNat = 0x34 := by decide +kernel

theorem witness_UuidMatchesPattern :
    (List.replicate 16 0xFF#8).length = 16 ∧ 35 < 36 ∧
    (uuidRender (uuidForce (List.replicate 16 0xFF#8)))[19]? = some 0x62#8 := by decide +kernel

/-- V91 and V95 give one string. -/
theorem witness_UuidStringDecidesUnforcedBits :
    (List.replicate 16 0#8).length = 16 ∧
    ([0#8, 0#8, 0#8, 0#8, 0#8, 0#8, 0xF0#8, 0#8, 0xC0#8, 0#8, 0#8, 0#8, 0#8, 0#8, 0#8, 0#8] : List Byte).length = 16 ∧
    uuidRender (uuidForce (List.replicate 16 0#8)) =
      uuidRender (uuidForce [0#8, 0#8, 0#8, 0#8, 0#8, 0#8, 0xF0#8, 0#8, 0xC0#8, 0#8, 0#8, 0#8, 0#8, 0#8, 0#8, 0#8]) := by
  decide +kernel

/-- A state that is not reset's, and a command that writes. -/
theorem witness_StepKeepsInvariant :
    State.Inv (scripted [.cmd 0x22#8]) ∧ ∃ t, step (scripted [.cmd 0x22#8]) = .next t ∧ (t.mem.length == 10) = true :=
  ⟨by decide +kernel, next_of_check (by decide +kernel)⟩

theorem witness_FailedCommandChangesOnlyCause :
    (∃ t, runCommand 0x10#8 (small 5 4 0 9 []) = .next t ∧ (t.cause == 7#8) = true) ∧
    ∃ t, runCommand 0x21#8 (small 5 4 0 9 []) = .next t ∧ (t.cause == 4#8) = true :=
  ⟨next_of_check (by decide +kernel), next_of_check (by decide +kernel)⟩

/-- One state for each code, and for none. -/
theorem witness_EachCodeHasItsCondition :
    (∀ p ∈ [(Instr.wrS64be, 2 ^ 63), (.wrU64be, 2 ^ 64)],
      nextIs (exec p.1 (small 0 0 0 p.2 [])) (fun t => t.cause == 1#8) = true) ∧
    (∀ i ∈ [Instr.rduBe, .rduLe, .md5, .sha1, .sha256],
      nextIs (exec i (small 0 4097 0 0 [])) (fun t => t.cause == 2#8) = true ∧
      nextIs (exec i (small 1 0 0 0 [])) (fun t => t.cause == 7#8) = true) ∧
    (∀ p ∈ [(Instr.rdS64be, 4089), (.rdU64be, 4089), (.uuid4, 4081)],
      nextIs (exec p.1 (small p.2 0 0 0 [])) (fun t => t.cause == 2#8) = true) ∧
    (∀ p ∈ [(Instr.wrxLe, 8), (.wrS64be, 8), (.wrU64be, 8), (.md5, 16), (.sha1, 20), (.sha256, 32), (.uuid4, 36)],
      nextIs (exec p.1 (small 0 0 (4097 - p.2) 0 [])) (fun t => t.cause == 5#8) = true) ∧
    (nextIs (exec .rduBe (small 0 17 0 0 (bytesAt 0 (1 :: List.replicate 16 0)))) (fun t => t.cause == 6#8) = true ∧
      nextIs (exec .rduLe (small 0 17 0 0 (bytesAt 0 (List.replicate 16 0 ++ [1])))) (fun t => t.cause == 6#8) = true) ∧
    nextIs (runCommand 0x21#8 (small 0 0 0 0 [])) (fun t => t.cause == 4#8) = true ∧
    nextIs (runCommand 0x10#8 (small 0 0 0 0 [])) (fun t => t.cause == 0#8) = true := by decide +kernel

theorem witness_CommandsNeverWriteOperandRegisters :
    ∃ t, exec .wrU64be (small 1 2 3 4 []) = .next t ∧ (t.A == 1#32 && t.B == 2#32 && t.D == 3#32) = true :=
  next_of_check (by decide +kernel)

theorem witness_NIsWrittenOnSuccessOnly :
    (∀ p ∈ [(Instr.wrxLe, 8), (.wrS64be, 8), (.wrU64be, 8), (.md5, 16), (.sha1, 20), (.sha256, 32), (.uuid4, 36)],
      nextIs (exec p.1 (small 0 0 0 0 (bytesAt 0 (List.range 16)))) (fun t => t.N.toNat == p.2) = true) ∧
    nextIs (exec .wrS64be (small 0 0 4088 0 [])) (fun t => t.N.toNat == 4096) = true ∧
    nextIs (exec .wrS64be (small 0 0 4089 0 [])) (fun t => t.N.toNat == 0x77) = true ∧
    (scripted [.hwr 3 (-5)]).script = .hwr 3 (-5) :: [] ∧ (scripted [.hrd 3]).script = .hrd 3 :: [] := by decide +kernel

theorem witness_StepKeepsParameters :
    ∃ t, step (scripted [.hwr 4 (-1)]) = .next t ∧ (t.X.toNat == 2 ^ 128 - 1) = true := next_of_check (by decide +kernel)

/-- A read extent that is written, one that reaches past MEM_SIZE, and one with an unwritten last byte. -/
theorem witness_NothingIsStuck :
    (∀ j, j < readLen .rdS64be (small 0 0 0 0 (bytesAt 0 (List.range 8))) →
      memByte (bytesAt 0 (List.range 8)) (0 + j) ≠ none) ∧
    nextIs (exec .rdS64be (small 0 0 0 0 (bytesAt 0 (List.range 8)))) (fun t => t.cause == 0#8) = true ∧
    nextIs (exec .rdS64be (small 4089 0 0 0 [])) (fun t => t.cause == 2#8) = true ∧
    unwritten (exec .rdS64be (small 0 0 0 0 (bytesAt 0 (List.range 7)))) = true := by decide +kernel

/-- The same bytes in the read extent, other bytes around it. -/
theorem witness_NoHiddenState :
    (∀ a, inExtent (small 1 0 0 0 (bytesAt 1 (List.range 8))).A.toNat 8 a →
      memByte (bytesAt 0 (9 :: List.range 8 ++ [9])) a = memByte (small 1 0 0 0 (bytesAt 1 (List.range 8))).mem a) ∧
    (∃ t, exec .rdS64be (small 1 0 0 0 (bytesAt 1 (List.range 8))) = .next t ∧ (t.cause == 0#8) = true) ∧
    unwritten (exec .rdS64be (small 0 0 0 0 [])) = true := by
  refine ⟨fun a h => ?_, next_of_check (by decide +kernel), by decide +kernel⟩
  have h1 : 1 ≤ a := h.1
  have h2 : a < 9 := h.2
  interval_cases a <;> rfl

/-- Each of the eight commands with its write extent clear of its read extent. -/
theorem witness_RepeatedCommandIsIdempotent :
    Memory.wf (small 0 8 64 0 (bytesAt 0 (List.range 16))).mem = true ∧
    (∀ i ∈ [Instr.rduBe, .rduLe, .rdS64be, .rdU64be, .md5, .sha1, .sha256, .uuid4],
      (∃ t, exec i (small 0 8 64 0 (bytesAt 0 (List.range 16))) = .next t ∧ (t.cause == 0#8) = true) ∧
      readLen i (small 0 8 64 0 (bytesAt 0 (List.range 16))) ≤ 16) ∧
    ∀ a, inExtent (small 0 8 64 0 []).A.toNat 16 a → ¬ inExtent (small 0 8 64 0 []).D.toNat 36 a := by
  refine ⟨by decide +kernel, fun i hi => ⟨next_of_check ?_, ?_⟩, fun a h h' => ?_⟩
  · revert i; decide +kernel
  · revert i; decide +kernel
  · have h1 : a < 16 := h.2
    have h2 : 64 ≤ a := h'.1
    omega

theorem witness_HostWriteStoresRegister :
    (∀ r ∈ [0, 1, 2], nextIs (step (scripted [.hwr r (2 ^ 32 - 1)])) (fun t => readReg r t == 2 ^ 32 - 1) = true ∧
      nextIs (step (scripted [.hwr r 0])) (fun t => readReg r t == 0) = true) ∧
    (nextIs (step (scripted [.hwr 4 (-(2 ^ 127))])) (fun t => readReg 4 t == 2 ^ 127) = true ∧
      nextIs (step (scripted [.hwr 4 (2 ^ 128 - 1)])) (fun t => readReg 4 t == 2 ^ 128 - 1) = true) ∧
    (∀ r ∈ [3, 5], nextIs (step (scripted [.hwr r (-1)])) (fun t => readReg r t == readReg r (scripted [])) = true) ∧
    (nextIs (step (scripted [.hwr 6 0])) (fun t => t.cause == 4#8) = true ∧
      nextIs (step (scripted [.hwr 6 255])) (fun t => t.cause == 4#8) = true) := by decide +kernel

theorem witness_HostReadGivesPattern :
    ∀ p ∈ [(0, 1), (1, 2), (2, 3), (3, 0x77), (4, 4), (5, 0), (6, 0)],
      (scripted [.hrd p.1]).script = .hrd p.1 :: [] ∧ readReg p.1 (scripted []) = p.2 ∧
      nextIs (step (scripted [.hrd p.1])) (fun t => t.replies == [p.2]) = true := by decide +kernel

theorem witness_HostStoreThenLoad :
    (scripted [.hsb 4095 255, .hlb 4095]).script = .hsb 4095 255 :: .hlb 4095 :: [] ∧ 4095 < (scripted []).params.memSize ∧
    255 < 256 := by decide +kernel

/-- Every clause at the first value it covers. -/
theorem witness_MoveOutsideTableIsRefused :
    (scripted [.hwr 7 0]).script = .hwr 7 0 :: [] ∧ ((2 : Int) ^ 32 ≤ 2 ^ 32 ∧ (-1 : Int) < 0) ∧
    ((2 : Int) ^ (scripted []).params.xw ≤ 2 ^ 128 ∧ -(2 ^ 127) - 1 < -((2 : Int) ^ ((scripted []).params.xw - 1))) ∧
    (scripted []).params.memSize ≤ 4096 ∧
    (∀ m ∈ [HostMove.hwr 7 0, .hwr 0 (2 ^ 32), .hwr 2 (-1), .hwr 4 (2 ^ 128), .hwr 4 (-(2 ^ 127) - 1), .hwr 6 256, .hwr 6 (-1),
      .hrd 7, .hsb 4096 0, .hsb 0 256, .hlb 4096], refusedMove (step (scripted [m])) = true) ∧
    ∀ m ∈ [HostMove.hrd 6, .hsb 4095 255], refusedMove (step (scripted [m])) = false := by decide +kernel

theorem witness_ResetMoveClearsCauseAndMemory :
    (scripted [.reset, .hlb 0]).script = .reset :: [.hlb 0] ∧ 4095 < (scripted []).params.memSize := ⟨rfl, by decide +kernel⟩

theorem witness_PseudoInstructionsExpand :
    ("sha512" ≠ "md5" ∧ "sha512" ≠ "sha1" ∧ "sha512" ≠ "sha256" ∧ digestMoves "sha512" = none) ∧
    fillMoves 7 [1, 2] = [.hsb 7 1, .hsb 8 2] ∧ fillTextMoves 0 "abc" = [.hsb 0 0x61, .hsb 1 0x62, .hsb 2 0x63] := by
  decide +kernel

/-- The first and the last word of a state (95 section 4.4's `6bf5d3b2` for MD5). -/
theorem witness_DigestSerialisesWordsInOrder :
    ([0x6bf5d3b2#32, 0x98fd97c1#32, 0x0765595d#32, 0x48715e9b#32][0]? = some 0x6bf5d3b2#32 ∧ 3 < 4 ∧
      (md5Serialise ⟨0x6bf5d3b2#32, 0x98fd97c1#32, 0x0765595d#32, 0x48715e9b#32⟩).take 4 = [0xb2#8, 0xd3#8, 0xf5#8, 0x6b#8]) ∧
    ([sha1Iv.a, sha1Iv.b, sha1Iv.c, sha1Iv.d, sha1Iv.e][4]? = some sha1Iv.e ∧
      (sha1Serialise sha1Iv).drop 16 = [0xC3#8, 0xD2#8, 0xE1#8, 0xF0#8]) ∧
    [sha256Iv.a, sha256Iv.b, sha256Iv.c, sha256Iv.d, sha256Iv.e, sha256Iv.f, sha256Iv.g, sha256Iv.h][7]? = some sha256Iv.h ∧
    (sha256Serialise sha256Iv).drop 28 = [0x5b#8, 0xe0#8, 0xcd#8, 0x19#8] := by decide +kernel

/-- R172's formula by exact integers: `K[t]` is the fraction, to 32 bits, of a cube root of the `t`-th prime; its whole
part `n` is at most 6. -/
theorem test_sha256_constants_are_cube_roots :
    sha256Table.length = 64 ∧
    (((List.range 312).filter fun n => 2 ≤ n ∧ ∀ d ∈ [2, 3, 5, 7, 11, 13, 17], d < n → n % d ≠ 0).zip sha256Table).all
      (fun pk => (List.range 7).any fun n =>
        decide ((2 ^ 32 * n + pk.2.toNat) ^ 3 ≤ pk.1 * 2 ^ 96) && decide (pk.1 * 2 ^ 96 < (2 ^ 32 * n + pk.2.toNat + 1) ^ 3))
      = true := by decide +kernel

/-- A run of two steps that ends in no stop (Safety's `safeRun`): a command, then the load of a byte it wrote. -/
theorem witness_safeRun : safeRun 2 (scripted [.cmd 0x22#8, .hlb 3]) := by
  have h : nextIs (step (scripted [.cmd 0x22#8, .hlb 3])) (fun t => nextIs (step t) fun _ => true) = true := by decide +kernel
  obtain ⟨t, ht, h2⟩ := next_of_check h
  obtain ⟨u, hu, -⟩ := next_of_check h2
  exact ⟨t, ht, u, hu, trivial⟩

end Sys2Proof.Tests
end

-- Byte sequences and fixed-width values.
section
/-! SUPPORT. R7's weighted sums and unique sequences, R8's least digit count and two's complement patterns (00_scope). -/

namespace Sys2Proof.Machine

/-! ## The weighted sums (R7) -/

theorem leVal_eq_sum (s : List Byte) : leVal s = ∑ i ∈ Finset.range s.length, (s.getD i 0).toNat * 256 ^ i := by
  induction s with
  | nil => rfl
  | cons y s ih =>
    simp only [leVal, ih, List.length_cons, Finset.sum_range_succ', List.getD_cons_succ, List.getD_cons_zero, pow_zero,
      mul_one, Finset.mul_sum, pow_succ']
    rw [add_comm]
    exact congrArg (· + y.toNat) (Finset.sum_congr rfl fun _ _ => by ring)

theorem beVal_eq_sum (s : List Byte) :
    beVal s = ∑ i ∈ Finset.range s.length, (s.getD i 0).toNat * 256 ^ (s.length - 1 - i) := by
  induction s with
  | nil => rfl
  | cons y s ih =>
    have exponent (i : Nat) : s.length + 1 - 1 - (i + 1) = s.length - 1 - i := by omega
    simp only [beVal_cons, ih, List.length_cons, Finset.sum_range_succ', List.getD_cons_succ, List.getD_cons_zero,
      exponent]
    exact add_comm _ _

/-! ## The unique sequences with a value (R7) -/

theorem beVal_eq_leVal_reverse (s : List Byte) : beVal s = leVal s.reverse := by
  induction s with
  | nil => rfl
  | cons y s ih => simp [beVal_cons, leVal_append, leVal, ih]; ring

/-- Reading a sequence and writing its digits back gives the sequence. -/
theorem leBytes_leVal (s : List Byte) : leBytes (leVal s) s.length = s := by
  induction s with
  | nil => rfl
  | cons y s ih =>
    have hy := y.isLt
    have head : BitVec.ofNat 8 (y.toNat + 256 * leVal s) = y := by
      apply BitVec.eq_of_toNat_eq; simp only [BitVec.toNat_ofNat]; omega
    have tail : (y.toNat + 256 * leVal s) / 256 = leVal s := by omega
    simp only [leVal, List.length_cons, leBytes, head, tail, ih]

theorem eq_leBytes_iff {v n : Nat} (hv : v < 256 ^ n) (s : List Byte) :
    s = leBytes v n ↔ s.length = n ∧ leVal s = v := by
  constructor
  · rintro rfl
    exact ⟨length_leBytes n v, by rw [leVal_leBytes, Nat.mod_eq_of_lt hv]⟩
  · rintro ⟨rfl, rfl⟩
    exact (leBytes_leVal s).symm

theorem eq_beBytes_iff {v n : Nat} (hv : v < 256 ^ n) (s : List Byte) :
    s = beBytes v n ↔ s.length = n ∧ beVal s = v := by
  rw [beBytes, ← List.reverse_eq_iff, eq_leBytes_iff hv, List.length_reverse, beVal_eq_leVal_reverse]

/-- Settles O6: the sums by induction over the sequence, the uniqueness because reading inverts writing. -/
theorem byteSequenceValuesAreSums : Obligations.ByteSequenceValuesAreSums := fun s =>
  ⟨beVal_eq_sum s, leVal_eq_sum s, fun _ _ hv => ⟨eq_beBytes_iff hv s, eq_leBytes_iff hv s⟩⟩

/-! ## Fixed-width values (R8) -/

theorem lt_pow_iff_byteLen_le (v k : Nat) : v < 256 ^ k ↔ byteLen v ≤ k :=
  ⟨byteLen_le, fun h => (lt_pow_byteLen v).trans_le (Nat.pow_le_pow_right (by decide) h)⟩

theorem sval_eq_toInt {W p : Nat} (hW : 0 < W) (hp : p < 2 ^ W) : sval W p = (BitVec.ofNat W p).toInt := by
  have half : p < 2 ^ (W - 1) ↔ 2 * p < 2 ^ W := by
    rw [← Nat.two_pow_pred_mul_two hW]; omega
  rw [sval, BitVec.toInt_eq_toNat_cond, BitVec.toNat_ofNat, Nat.mod_eq_of_lt hp]
  simp only [half, Nat.cast_pow, Nat.cast_ofNat]

theorem toNat_zext {W v : Nat} (hv : v < 2 ^ W) : (zext W v).toNat = v := by
  rw [zext, BitVec.toNat_ofNat, Nat.mod_eq_of_lt hv]

theorem toInt_sext {W : Nat} {v : Int} (hW : 0 < W) (hlo : -(2 ^ (W - 1)) ≤ v) (hhi : v < 2 ^ (W - 1)) :
    (sext W v).toInt = v :=
  BitVec.toInt_ofInt_eq_self hW hlo hhi

/-- The pattern of `sext_W(v)` is `v mod 2^W`, whatever `v` is. -/
theorem toNat_sext (W : Nat) (v : Int) : ((sext W v).toNat : Int) = v % 2 ^ W := by
  have h : 0 ≤ v % 2 ^ W := Int.emod_nonneg v (by positivity)
  rw [sext, BitVec.toNat_ofInt]
  simpa using h

/-- Settles O7: one lemma per function of R8. -/
theorem fixedWidthValues : Obligations.FixedWidthValues :=
  ⟨lt_pow_iff_byteLen_le, fun _ _ => sval_eq_toInt, fun _ _ => toNat_zext,
    fun W v hW hlo hhi => ⟨toInt_sext hW hlo hhi, toNat_sext W v⟩⟩

end Sys2Proof.Machine
end

-- The register N.
section
/-! SUPPORT. What writes `N` and with which number (10_state R22), and what the host's two moves on it do (30_encoding R76). -/

namespace Sys2Proof.Machine

/-! ## The commands that write `N` (R22) -/

/-- The writing commands of R22 are those with a write extent. -/
theorem mem_writingCommands_iff (i : Instr) (s : State) :
    i ∈ [Instr.wrxLe, .wrS64be, .wrU64be, .md5, .sha1, .sha256, .uuid4] ↔ 0 < writeLen i s := by
  cases i <;> simp [writeLen, extendedLen]

theorem resultNumber_eq (i : Instr) (s : State) :
    resultNumber i s = if i = .wrS64be ∨ i = .wrU64be then s.D.toNat + 8 else writeLen i s := by
  cases i <;> rfl

/-- A write extent that fits keeps the result within MEM_SIZE: it is the extent's end or its length. -/
theorem resultNumber_le {i : Instr} {s : State} (h : s.D.toNat + writeLen i s ≤ s.params.memSize) :
    resultNumber i s ≤ s.params.memSize := by
  rw [resultNumber_eq]
  split
  · rename_i hi
    rcases hi with rfl | rfl <;> exact h
  · exact (Nat.le_add_left _ _).trans h

/-- A number within MEM_SIZE is stored in `N` as it is, since MEM_SIZE is at most 2^31 (R4). -/
theorem toNat_stored_N {s : State} {v : Nat} (h : v ≤ s.params.memSize) (out : List Byte) :
    (stored out v s).N.toNat = v := by
  have := s.params.memSize_le
  rw [stored_N, BitVec.toNat_ofNat, Nat.mod_eq_of_lt (by omega)]

theorem causeCode_ne_success (k : Cause) : causeCode k ≠ successCode := by cases k <;> decide

/-- A command either succeeds and leaves its number in `N`, or keeps `N`. -/
theorem exec_N {i : Instr} {s t : State} (ht : exec i s = .next t) :
    if t.cause = successCode ∧ 0 < writeLen i s then
      t.N.toNat ≤ s.params.memSize ∧ t.N.toNat = resultNumber i s
    else t.N = s.N := by
  rcases exec_cases i s with ⟨k, -, he⟩ | ⟨hlen, p, he⟩ | ⟨hlen, hfit, out, -, he⟩ | ⟨-, he⟩ <;>
    cases he.symm.trans ht
  case inl => rw [if_neg fun h => causeCode_ne_success k h.1, raised_N]
  case inr.inl => rw [if_neg (by omega), loaded_N]
  case inr.inr.inl =>
    have hle := resultNumber_le hfit
    rw [if_pos ⟨stored_cause .., hlen⟩, toNat_stored_N hle]
    exact ⟨hle, rfl⟩

/-! ## The host's moves on a script -/

theorem step_of_script {s : State} {m : HostMove} {rest : List HostMove} (h : s.script = m :: rest) :
    step s = hostMove m { s with script := rest } := by
  rw [step, h]

/-- Settles O48: the number per command is `exec_N`, the host's two moves are their arms. -/
theorem nIsWrittenOnSuccessOnly : Obligations.NIsWrittenOnSuccessOnly := by
  refine ⟨fun i s t ht => ?_, fun s rest => ⟨fun h => ?_, fun v h => ?_⟩⟩
  · simp only [mem_writingCommands_iff i s, ← resultNumber_eq]
    exact exec_N ht
  · rw [step_of_script h]
    exact hostMove_hrd (by decide)
  · rw [step_of_script h]
    exact hostMove_hwr rfl

end Sys2Proof.Machine
end

-- A command that fails.
section
/-! SUPPORT. A command that does not succeed has done nothing but `raise` (20_memory R59, 60_exceptions R229). -/

namespace Sys2Proof.Machine

/-- `raise` is the only end of a command that leaves `CAUSE` other than the success code. -/
theorem exec_failed {i : Instr} {s t : State} (ht : exec i s = .next t) (hc : t.cause ≠ successCode) :
    ∃ k, t = raised k s := by
  rcases exec_cases i s with ⟨k, -, he⟩ | ⟨-, p, he⟩ | ⟨-, -, out, -, he⟩ | ⟨-, he⟩ <;>
    cases he.symm.trans ht
  case inl => exact ⟨k, rfl⟩
  case inr.inl => exact absurd (loaded_cause s p) hc
  case inr.inr.inl => exact absurd (stored_cause out _ s) hc

/-- The same for every command word, reserved or not. -/
theorem runCommand_failed {c : Byte} {s t : State} (ht : runCommand c s = .next t) (hc : t.cause ≠ successCode) :
    ∃ k, t = raised k s := by
  rcases runCommand_cases c s with ⟨i, -, he⟩ | he
  · exact exec_failed (he.symm.trans ht) hc
  · cases he.symm.trans ht
    exact ⟨.illegalCommand, rfl⟩

/-- Settles O45: the state after a failure is a `raised` one. -/
theorem failedCommandChangesOnlyCause : Obligations.FailedCommandChangesOnlyCause := by
  intro c s t ht hc
  obtain ⟨k, rfl⟩ := runCommand_failed ht hc
  exact ⟨rfl, fun a => by rw [raised_mem]⟩

end Sys2Proof.Machine
end

-- The opcode map.
section
/-! SUPPORT. The decoder as R71's table and its complement as R73's ranges (30_encoding R71, R73). -/

namespace Sys2Proof

/-- A lookup finds the rows of the table, and only those, when no word stands in two rows. -/
theorem lookupWord_eq_some_iff (c : Byte) (i : Instr) {rows : List (Byte × Instr)}
    (distinct : (rows.map Prod.fst).Nodup) : lookupWord c rows = some i ↔ (c, i) ∈ rows := by
  induction rows with
  | nil => simp [lookupWord]
  | cons row rows ih =>
    obtain ⟨w, j⟩ := row
    obtain ⟨hw, hrest⟩ := List.nodup_cons.1 distinct
    rw [lookupWord]
    split
    · next hc =>
      subst hc
      have hnot : (c, i) ∉ rows := fun hmem => hw (List.mem_map.2 ⟨_, hmem, rfl⟩)
      simp [hnot, eq_comm]
    · next hc => simp [hc, ih hrest]

theorem lookupWord_eq_none_iff (c : Byte) (rows : List (Byte × Instr)) :
    lookupWord c rows = none ↔ c ∉ rows.map Prod.fst := by
  induction rows with
  | nil => simp [lookupWord]
  | cons row rows ih =>
    rw [lookupWord]
    split
    · next hc => simp [hc]
    · next hc => rw [ih, List.map_cons, List.mem_cons, not_or, and_iff_right hc]

theorem opcodeMap_words_nodup : (opcodeMap.map Prod.fst).Nodup := by decide

/-- The decoder answers by the table of R71. -/
theorem decode_eq_ok_iff (c : Byte) (i : Instr) : decode c = .ok i ↔ (c, i) ∈ opcodeMap := by
  rw [← lookupWord_eq_some_iff c i opcodeMap_words_nodup, decode]
  split <;> simp [*]

theorem decode_eq_reserved_iff (c : Byte) : decode c = .error (.reserved c) ↔ c ∉ opcodeMap.map Prod.fst := by
  rw [← lookupWord_eq_none_iff, decode]
  split <;> simp [*]

theorem reservedWord_iff (c : Byte) : reservedWord c = true ↔
    (c.toNat ≤ 0x0F ∨ (0x14 ≤ c.toNat ∧ c.toNat ≤ 0x1F) ∨ c.toNat = 0x21 ∨ (0x24 ≤ c.toNat ∧ c.toNat ≤ 0x2F) ∨
      (0x33 ≤ c.toNat ∧ c.toNat ≤ 0x3F) ∨ 0x41 ≤ c.toNat) := by
  simp [reservedWord, or_assoc]

/-- The ranges of R73 are the words that R71 leaves free. -/
theorem reservedWord_iff_not_mem_words (c : Byte) : reservedWord c = true ↔ c ∉ opcodeMap.map Prod.fst := by
  rw [reservedWord_iff]
  simp only [opcodeMap, List.map_append, List.map_cons, List.map_nil, List.mem_append, List.mem_cons,
    List.not_mem_nil, ← BitVec.toNat_inj, BitVec.reduceToNat, or_false]
  omega

theorem decode_eq_reserved_iff_reservedWord (c : Byte) : decode c = .error (.reserved c) ↔ reservedWord c = true := by
  rw [decode_eq_reserved_iff, reservedWord_iff_not_mem_words]

theorem reservedWord_count : ((List.range 256).filter fun w => reservedWord (BitVec.ofNat 8 w)).length = 245 := by
  decide +kernel

end Sys2Proof

namespace Sys2Proof.Machine

/-- Settles O1: the rows that the obligation writes out in binary are those of the opcode map. -/
theorem wordSelectsCommandIffInTable : Obligations.WordSelectsCommandIffInTable := decode_eq_ok_iff

/-- Settles O3: the decoder refuses the words that are not in the table, and a refused word runs only `raise`. -/
theorem reservedWordRaisesIllegalCommand : Obligations.ReservedWordRaisesIllegalCommand :=
  ⟨fun c => (decode_eq_reserved_iff_reservedWord c).trans (reservedWord_iff c), reservedWord_count,
    fun c s hc => runCommand_error ((decode_eq_reserved_iff_reservedWord c).2 hc) s⟩

end Sys2Proof.Machine
end

-- The codec readers.
section
/-! SUPPORT. What each end of the two reader bodies is, in the order checked (40_codec_read R91, R92, R94, R95). -/

namespace Sys2Proof.Machine

/-! ## The range readers, for either byte order (R91, R92) -/

theorem readRange_order {s : State} (val : List Byte → Nat) (h : s.B.toNat < s.A.toNat) :
    readRange val s = .next (raised .orderFault s) :=
  checkRange_order h _

theorem readRange_length {s : State} (val : List Byte → Nat) (h1 : s.A.toNat ≤ s.B.toNat)
    (h2 : s.params.memSize < s.B.toNat) : readRange val s = .next (raised .lengthError s) :=
  checkRange_length h1 h2 _

/-- With the operand checks passed and the bytes read, only the check on the value is left. -/
theorem readRange_ready {s : State} {bytes : List Byte} (val : List Byte → Nat) (h : rangeReady s bytes) :
    readRange val s = if 2 ^ s.params.xw ≤ val bytes then .next (raised .precisionFault s)
      else .next (loaded s (zext s.params.xw (val bytes))) := by
  obtain ⟨horder, hfits, hread⟩ := h
  rw [readRange, checkRange_pass horder hfits, withSource_some hread]
  rfl

theorem readRange_precision {s : State} {bytes : List Byte} {val : List Byte → Nat} (h : rangeReady s bytes)
    (hv : 2 ^ s.params.xw ≤ val bytes) : readRange val s = .next (raised .precisionFault s) := by
  rw [readRange_ready val h, if_pos hv]

theorem readRange_loaded {s : State} {bytes : List Byte} {val : List Byte → Nat} (h : rangeReady s bytes)
    (hv : val bytes < 2 ^ s.params.xw) : readRange val s = .next (loaded s (zext s.params.xw (val bytes))) := by
  rw [readRange_ready val h, if_neg (Nat.not_le.2 hv)]

/-- Settles O11: one lemma per end of the range readers, at the big-endian value. -/
theorem rduBeLoadsBigEndianValue : Obligations.RduBeLoadsBigEndianValue := fun _ =>
  ⟨readRange_order beVal, readRange_length beVal, fun _ h => ⟨readRange_precision h, readRange_loaded h⟩⟩

/-- Settles O12: the same ends at the little-endian value. -/
theorem rduLeLoadsLittleEndianValue : Obligations.RduLeLoadsLittleEndianValue := fun _ =>
  ⟨readRange_order leVal, readRange_length leVal, fun _ h => ⟨readRange_precision h, readRange_loaded h⟩⟩

/-! ## The fixed-length readers (R94, R95) -/

/-- Combining the two 32-bit halves is exact (R96): it is the big-endian value of the 8 bytes. -/
theorem read64_eq_beVal {bytes : List Byte} (h : bytes.length = 8) : read64 bytes = beVal bytes := by
  have low : (bytes.drop 4).length = 4 := by rw [List.length_drop, h]
  calc read64 bytes = beVal (bytes.take 4) * 256 ^ (bytes.drop 4).length + beVal (bytes.drop 4) := by rw [low]; rfl
    _ = beVal bytes := by rw [← beVal_append, List.take_append_drop]

theorem readFixed_ready {s : State} {bytes : List Byte} (ext : (W : Nat) → Nat → BitVec W)
    (h : sourceReady 8 s bytes) : readFixed ext s = .next (loaded s (ext s.params.xw (beVal bytes))) := by
  obtain ⟨hfits, hread⟩ := h
  rw [readFixed, checkSource_pass hfits, withSource_some hread, read64_eq_beVal (memRead_length hread)]
  rfl

theorem readFixed_length {s : State} (ext : (W : Nat) → Nat → BitVec W) (h : s.params.memSize < s.A.toNat + 8) :
    readFixed ext s = .next (raised .lengthError s) :=
  checkSource_fail h _

/-- Settles O13: the reader's two ends, at the sign-extended reading of the 64 bits. -/
theorem rdS64beLoadsSignExtended : Obligations.RdS64beLoadsSignExtended := fun _ =>
  ⟨fun _ => readFixed_ready fun W u => sext W (sval 64 u), readFixed_length fun W u => sext W (sval 64 u)⟩

/-- Settles O14: the reader's two ends, at the zero-extended value. -/
theorem rdU64beLoadsZeroExtended : Obligations.RdU64beLoadsZeroExtended := fun _ =>
  ⟨fun _ => readFixed_ready zext, readFixed_length zext⟩

end Sys2Proof.Machine
end

-- The codec writers.
section
/-! SUPPORT. The bytes the writers store and each end of their bodies, in the order checked (41_codec_write R111, R112,
R113). -/

namespace Sys2Proof.Machine

/-! ## One write and the bytes it leaves -/

theorem holdsAt_memWrite (m : Memory) (d : Nat) (out : List Byte) : holdsAt (memWrite m d out) m d out :=
  ⟨fun _ => memByte_memWrite_inside, fun _ => memByte_memWrite_outside⟩

/-- Byte `i` of `be_bytes(v, n)` is digit `n - 1 - i` of `v` (R7). -/
theorem getElem?_beBytes (v : Nat) {n i : Nat} (h : i < n) :
    (beBytes v n)[i]? = some (BitVec.ofNat 8 (v / 256 ^ (n - 1 - i))) := by
  rw [beBytes, List.getElem?_reverse (by rwa [length_leBytes]), length_leBytes, getElem?_leBytes n v _ (by omega)]

/-- A base-256 digit of a pattern is eight of its bits. -/
theorem ofNat_digit_eq_extractLsb' {W : Nat} (p : BitVec W) (k : Nat) :
    BitVec.ofNat 8 (p.toNat / 256 ^ k) = p.extractLsb' (8 * k) 8 := by
  rw [BitVec.extractLsb', Nat.shiftRight_eq_div_pow, Nat.pow_mul]

/-- The 8 big-endian bytes of a pattern are `X[63:56]` to `X[7:0]` (R112). -/
theorem getElem?_beBytes_eight {W : Nat} (p : BitVec W) {i : Nat} (h : i < 8) :
    (beBytes p.toNat 8)[i]? = some (p.extractLsb' (56 - 8 * i) 8) := by
  rw [getElem?_beBytes _ h, ofNat_digit_eq_extractLsb', show 8 * (8 - 1 - i) = 56 - 8 * i by omega]

/-! ## WRX_LE (R111) -/

/-- R8's property of `bytelen(v)` determines it. -/
theorem byteLen_eq {v k : Nat} (hlt : v < 256 ^ k) (hleast : ∀ j, j < k → 256 ^ j ≤ v) : byteLen v = k :=
  le_antisymm (byteLen_le hlt) (Nat.le_of_not_lt fun h => Nat.not_lt.2 (hleast _ h) (lt_pow_byteLen v))

theorem execWrxLe_stored {s : State} (h : destReady (extendedLen s.X.toNat) s) :
    execWrxLe s = .next (stored (leBytes s.X.toNat (extendedLen s.X.toNat)) (extendedLen s.X.toNat) s) :=
  checkDest_pass h _

theorem execWrxLe_bounds {s : State} (h : s.params.memSize < s.D.toNat + extendedLen s.X.toNat) :
    execWrxLe s = .next (raised .boundsFault s) :=
  checkDest_fail h _

/-- Settles O18: the count is `extendedLen`, and byte `i` written is digit `i` of the value. -/
theorem wrxLeWritesDigits : Obligations.WrxLeWritesDigits := by
  intro s k hlt hleast
  have hlen : max 8 k = extendedLen s.X.toNat := by rw [extendedLen, byteLen_eq hlt hleast]
  rw [hlen]
  obtain ⟨hin, hout⟩ := holdsAt_memWrite s.mem s.D.toNat (leBytes s.X.toNat (extendedLen s.X.toNat))
  rw [length_leBytes] at hin hout
  exact ⟨fun hfits => ⟨_, execWrxLe_stored hfits, rfl,
    fun i hi => (hin i hi).trans (getElem?_leBytes _ _ i hi), hout⟩, execWrxLe_bounds⟩

/-! ## The 64-bit writers, for either range (R112, R113) -/

theorem xw_ge (s : State) : 72 ≤ s.params.xw := by
  have := s.params.xbytes_ge
  rw [Params.xw]
  omega

/-- The value the writers validate is `X` read signed. -/
theorem sval_X (s : State) : sval s.params.xw s.X.toNat = s.X.toInt := by
  rw [sval_eq_toInt (by have := xw_ge s; omega) s.X.isLt, BitVec.ofNat_toNat, BitVec.setWidth_eq]

/-- The signed and the unsigned reading of a pattern agree modulo `2^k` for every `k` up to its width. -/
theorem toInt_emod_two_pow {W k : Nat} (p : BitVec W) (h : k ≤ W) : p.toInt % 2 ^ k = (p.toNat : Int) % 2 ^ k := by
  have hdvd : (2 : Int) ^ k ∣ ((2 ^ W : Nat) : Int) := by exact_mod_cast pow_dvd_pow 2 h
  calc p.toInt % 2 ^ k = p.toInt % ((2 ^ W : Nat) : Int) % 2 ^ k := (Int.emod_emod_of_dvd _ hdvd).symm
    _ = (p.toNat : Int) % ((2 ^ W : Nat) : Int) % 2 ^ k := by rw [BitVec.toInt_eq_toNat_bmod, Int.bmod_emod]
    _ = (p.toNat : Int) % 2 ^ k := Int.emod_emod_of_dvd _ hdvd

/-- Reduced to 64 bits, the value gives the low 8 bytes of `X`, most significant first. -/
theorem write64_toInt {W : Nat} (p : BitVec W) (h : 64 ≤ W) :
    write64 (p.toInt % 2 ^ 64).toNat = beBytes p.toNat 8 := by
  rw [toInt_emod_two_pow p h, Int.toNat_emod (Int.natCast_nonneg _) (by decide), ← write64_eq]
  rfl

section Ends

variable {lo hi : Int} {s : State}

theorem writeFixed_range (h : s.X.toInt < lo ∨ hi < s.X.toInt) : writeFixed lo hi s = .next (raised .rangeError s) := by
  rw [writeFixed, sval_X]
  exact if_pos h

/-- With the validator passed, only the extent check is left. -/
theorem writeFixed_valid (hlo : lo ≤ s.X.toInt) (hhi : s.X.toInt ≤ hi) :
    writeFixed lo hi s = checkDest 8 s (.next (stored (beBytes s.X.toNat 8) (s.D.toNat + 8) s)) := by
  rw [writeFixed, sval_X, ← write64_toInt s.X (by have := xw_ge s; omega)]
  exact if_neg (by omega)

theorem writeFixed_bounds (hlo : lo ≤ s.X.toInt) (hhi : s.X.toInt ≤ hi) (h : s.params.memSize < s.D.toNat + 8) :
    writeFixed lo hi s = .next (raised .boundsFault s) := by
  rw [writeFixed_valid hlo hhi, checkDest_fail h]

theorem writeFixed_stored (hlo : lo ≤ s.X.toInt) (hhi : s.X.toInt ≤ hi) (h : destReady 8 s) :
    writeFixed lo hi s = .next (stored (beBytes s.X.toNat 8) (s.D.toNat + 8) s) := by
  rw [writeFixed_valid hlo hhi, checkDest_pass h]

/-- What the success end leaves: `M[D] = X[63:56]` to `M[D+7] = X[7:0]`, `N`, `CAUSE`, and all else as it was. -/
theorem writeFixed_writes (hlo : lo ≤ s.X.toInt) (hhi : s.X.toInt ≤ hi) (h : destReady 8 s) :
    ∃ t, writeFixed lo hi s = .next t ∧
      t = { s with mem := t.mem, N := BitVec.ofNat 32 (s.D.toNat + 8), cause := successCode } ∧
      (∀ i, i < 8 → memByte t.mem (s.D.toNat + i) = some (s.X.extractLsb' (56 - 8 * i) 8)) ∧
      ∀ a, ¬ inExtent s.D.toNat 8 a → memByte t.mem a = memByte s.mem a := by
  obtain ⟨hin, hout⟩ := holdsAt_memWrite s.mem s.D.toNat (beBytes s.X.toNat 8)
  rw [length_beBytes] at hin hout
  exact ⟨_, writeFixed_stored hlo hhi h, rfl, fun i hi => (hin i hi).trans (getElem?_beBytes_eight s.X hi), hout⟩

end Ends

/-- Settles O19: the three ends of the shared body, at the signed range. -/
theorem wrS64beWritesBigEndian : Obligations.WrS64beWritesBigEndian := fun _ =>
  ⟨writeFixed_range, fun hlo hhi => ⟨writeFixed_bounds hlo hhi, writeFixed_writes hlo hhi⟩⟩

/-- Settles O20: the same ends at the unsigned range. -/
theorem wrU64beWritesBigEndian : Obligations.WrU64beWritesBigEndian := fun _ =>
  ⟨writeFixed_range, fun hlo hhi => ⟨writeFixed_bounds hlo hhi, writeFixed_writes hlo hhi⟩⟩

end Sys2Proof.Machine
end

-- The validator.
section
/-! SUPPORT. The bit tests of the 64-bit writers' validator, and the ranges they stand for (41_codec_write R114). -/

namespace Sys2Proof.Machine

/-! ## The bits from `k` up -/

theorem testBit_toNat_div {W : Nat} (p : BitVec W) (k i : Nat) :
    (p.toNat / 2 ^ k).testBit i = p.getLsbD (i + k) := by
  rw [Nat.testBit_div_two_pow, BitVec.testBit_toNat]

/-- The bits from `k` up are all zero when the quotient by `2^k` is. -/
theorem div_two_pow_eq_zero_iff {W : Nat} (p : BitVec W) (k : Nat) :
    p.toNat / 2 ^ k = 0 ↔ ∀ j, k ≤ j → j < W → p.getLsbD j = false := by
  constructor
  · intro h j hk _
    rw [← Nat.sub_add_cancel hk, ← testBit_toNat_div, h, Nat.zero_testBit]
  · refine fun h => Nat.zero_of_testBit_eq_false fun i => ?_
    rw [testBit_toNat_div]
    by_cases hi : i + k < W
    · exact h _ (Nat.le_add_left k i) hi
    · exact BitVec.getLsbD_of_ge p _ (Nat.not_lt.1 hi)

/-- The bits from `k` up are all one when the quotient by `2^k` is the greatest there is. -/
theorem div_two_pow_eq_ones_iff {W : Nat} (p : BitVec W) (k : Nat) :
    p.toNat / 2 ^ k = 2 ^ (W - k) - 1 ↔ ∀ j, k ≤ j → j < W → p.getLsbD j = true := by
  constructor
  · intro h j hk hj
    rw [← Nat.sub_add_cancel hk, ← testBit_toNat_div, h, Nat.testBit_two_pow_sub_one]
    exact decide_eq_true (by omega)
  · refine fun h => Nat.eq_of_testBit_eq fun i => ?_
    rw [testBit_toNat_div, Nat.testBit_two_pow_sub_one]
    by_cases hi : i + k < W
    · rw [h _ (Nat.le_add_left k i) hi, decide_eq_true (by omega)]
    · rw [BitVec.getLsbD_of_ge p _ (Nat.not_lt.1 hi), decide_eq_false (by omega)]

/-! ## The two tests -/

theorem signedOk_iff {W : Nat} (p : BitVec W) :
    signedOk W p = true ↔ p.toNat / 2 ^ 63 = 0 ∨ p.toNat / 2 ^ 63 = 2 ^ (W - 63) - 1 := by
  rw [signedOk, Bool.or_eq_true, beq_iff_eq, beq_iff_eq]

theorem unsignedOk_iff {W : Nat} (p : BitVec W) : unsignedOk W p = true ↔ p.toNat / 2 ^ 64 = 0 := by
  rw [unsignedOk, beq_iff_eq]

theorem signedOk_iff_bits_eq {W : Nat} (p : BitVec W) (hW : 63 < W) :
    signedOk W p = true ↔ ∀ j, 63 ≤ j → j < W → p.getLsbD j = p.getLsbD 63 := by
  rw [signedOk_iff, div_two_pow_eq_zero_iff, div_two_pow_eq_ones_iff]
  constructor
  · rintro (h | h) j hj hjW <;> rw [h j hj hjW, h 63 le_rfl hW]
  · intro h
    cases hbit : p.getLsbD 63 with
    | false => exact .inl (by simpa only [hbit] using h)
    | true => exact .inr (by simpa only [hbit] using h)

theorem unsignedOk_iff_bits_zero {W : Nat} (p : BitVec W) :
    unsignedOk W p = true ↔ ∀ j, 64 ≤ j → j < W → p.getLsbD j = false := by
  rw [unsignedOk_iff, div_two_pow_eq_zero_iff]

/-! ## The ranges they stand for -/

/-- The signed reading of a `W`-bit pattern, with `2^W` split at bit `k`. -/
theorem toInt_eq_split {W k : Nat} (p : BitVec W) (hk : k ≤ W) :
    p.toNat < 2 ^ k * 2 ^ (W - k) ∧
    p.toInt = if 2 * p.toNat < 2 ^ k * 2 ^ (W - k) then (p.toNat : Int)
      else (p.toNat : Int) - ((2 ^ k * 2 ^ (W - k) : Nat) : Int) := by
  rw [pow_mul_pow_sub 2 hk]
  exact ⟨p.isLt, BitVec.toInt_eq_toNat_cond p⟩

theorem signedOk_iff_range {W : Nat} (p : BitVec W) (hW : 63 < W) :
    signedOk W p = true ↔ -(2 ^ 63) ≤ p.toInt ∧ p.toInt ≤ 2 ^ 63 - 1 := by
  obtain ⟨hlt, hval⟩ := toInt_eq_split p hW.le
  have htop : 2 ≤ 2 ^ (W - 63) := Nat.le_self_pow (by omega) 2
  rw [signedOk_iff, hval]
  generalize 2 ^ (W - 63) = top at *
  split <;> omega

theorem unsignedOk_iff_range {W : Nat} (p : BitVec W) (hW : 64 < W) :
    unsignedOk W p = true ↔ 0 ≤ p.toInt ∧ p.toInt ≤ 2 ^ 64 - 1 := by
  obtain ⟨hlt, hval⟩ := toInt_eq_split p hW.le
  have htop : 2 ≤ 2 ^ (W - 64) := Nat.le_self_pow (by omega) 2
  rw [unsignedOk_iff, hval]
  generalize 2 ^ (W - 64) = top at *
  split <;> omega

theorem unsignedOk_iff_toNat_le {W : Nat} (p : BitVec W) : unsignedOk W p = true ↔ p.toNat ≤ 2 ^ 64 - 1 := by
  rw [unsignedOk_iff]
  omega

/-! ## The writers' RangeError -/

/-- No other end of the 64-bit writers leaves the code of RangeError. -/
theorem writeFixed_rangeError_iff (lo hi : Int) (s : State) :
    (∃ t, writeFixed lo hi s = .next t ∧ t.cause = causeCode .rangeError) ↔ ¬ (lo ≤ s.X.toInt ∧ s.X.toInt ≤ hi) := by
  constructor
  · rintro ⟨t, ht, hc⟩ ⟨hlo, hhi⟩
    by_cases hfits : destReady 8 s
    · cases (writeFixed_stored hlo hhi hfits).symm.trans ht
      exact absurd hc (by rw [stored_cause]; decide)
    · cases (writeFixed_bounds hlo hhi (Nat.not_le.1 hfits)).symm.trans ht
      exact absurd hc (by rw [raised_cause]; decide)
  · intro h
    exact ⟨_, writeFixed_range (by omega), raised_cause _ _⟩

/-- Settles O21: the tests are statements about the quotients by `2^63` and `2^64`, and so are the ranges. -/
theorem validatorIsTheRangeCheck : Obligations.ValidatorIsTheRangeCheck := by
  refine ⟨fun W p hW => ⟨signedOk_iff_bits_eq p (by omega), unsignedOk_iff_bits_zero p,
    signedOk_iff_range p (by omega), unsignedOk_iff_range p (by omega), unsignedOk_iff_toNat_le p⟩, fun s => ?_⟩
  have hW := xw_ge s
  rw [← Bool.not_eq_true, ← Bool.not_eq_true, signedOk_iff_range s.X (by omega), unsignedOk_iff_range s.X (by omega)]
  exact ⟨writeFixed_rangeError_iff _ _ s, writeFixed_rangeError_iff _ _ s⟩

end Sys2Proof.Machine
end

-- The digest commands.
section
/-! SUPPORT. Each end of the body the three hash commands share, in the order checked (42_hash_common R135). -/

namespace Sys2Proof.Machine

section Ends

variable {s : State} (hash : List Byte → List Byte) (dl : Nat)

theorem digestCmd_order (h : s.B.toNat < s.A.toNat) : digestCmd hash dl s = .next (raised .orderFault s) :=
  checkRange_order h _

theorem digestCmd_length (h1 : s.A.toNat ≤ s.B.toNat) (h2 : s.params.memSize < s.B.toNat) :
    digestCmd hash dl s = .next (raised .lengthError s) :=
  checkRange_length h1 h2 _

theorem digestCmd_bounds (h1 : s.A.toNat ≤ s.B.toNat) (h2 : s.B.toNat ≤ s.params.memSize)
    (h3 : s.params.memSize < s.D.toNat + dl) : digestCmd hash dl s = .next (raised .boundsFault s) := by
  rw [digestCmd, checkRange_pass h1 h2, checkDest_fail h3]

/-- The bytes hashed are those of the state the command starts in. -/
theorem digestCmd_stored {msg : List Byte} (hr : rangeReady s msg) (hd : destReady dl s) :
    digestCmd hash dl s = .next (stored (hash msg) dl s) := by
  obtain ⟨horder, hfits, hread⟩ := hr
  rw [digestCmd, checkRange_pass horder hfits, checkDest_pass hd, withSource_some hread]
  rfl

end Ends

/-- Settles O27: every hash command is the shared body at its own function and digest length, and the body has one lemma
per end. -/
theorem digestCommandTemplate : Obligations.DigestCommandTemplate := by
  intro i hash dl hcommand s
  obtain ⟨hexec, hlen⟩ : exec i s = digestCmd hash dl s ∧ ∀ msg, (hash msg).length = dl := by
    rcases hcommand with ⟨rfl, rfl, rfl⟩ | ⟨rfl, rfl, rfl⟩ | ⟨rfl, rfl, rfl⟩
    · exact ⟨rfl, length_md5Hash⟩
    · exact ⟨rfl, length_sha1Hash⟩
    · exact ⟨rfl, length_sha256Hash⟩
  rw [hexec]
  exact ⟨digestCmd_order hash dl, digestCmd_length hash dl, digestCmd_bounds hash dl, fun msg hr hd =>
    ⟨hlen msg, _, digestCmd_stored hash dl hr hd, rfl, holdsAt_memWrite s.mem s.D.toNat (hash msg)⟩⟩

end Sys2Proof.Machine
end

-- Chaining.
section
/-! SUPPORT. The length of a padded message and the sequence of hash states over its blocks (42_hash_common R132, R133,
R134). -/

namespace Sys2Proof.Machine

/-! ## Blocks of a padded message (R132, R133) -/

/-- With its eight-byte length field the padded message is a whole number of blocks. -/
theorem length_pad {lenBytes : Nat → Nat → List Byte} (hlen : ∀ v n, (lenBytes v n).length = n) (msg : List Byte) :
    (pad lenBytes msg).length = 64 * ((msg.length + 8) / 64 + 1) := by
  simp only [pad, padZeros, List.length_append, List.length_singleton, List.length_replicate, hlen]
  omega

theorem getElem?_blocksOf {padded : List Byte} {i : Nat} (h : i < padded.length / 64) :
    (blocksOf padded)[i]? = some ((padded.drop (64 * i)).take 64) :=
  getElem?_chunks 64 _ padded i h

theorem length_blocksOf (padded : List Byte) : (blocksOf padded).length = padded.length / 64 :=
  length_chunks 64 _ padded

/-! ## The hash states (R134) -/

/-- `H_i`: the hash state after the first `i` blocks. -/
def chainState {σ : Type} (iv : σ) (compress : σ → List Byte → σ) (padded : List Byte) (i : Nat) : σ :=
  ((blocksOf padded).take i).foldl compress iv

section Sequence

variable {σ : Type} (iv : σ) (compress : σ → List Byte → σ)

theorem chainState_zero (padded : List Byte) : chainState iv compress padded 0 = iv := rfl

theorem chainState_succ {padded : List Byte} {i : Nat} (h : i < padded.length / 64) :
    chainState iv compress padded (i + 1) =
      compress (chainState iv compress padded i) ((padded.drop (64 * i)).take 64) := by
  rw [chainState, List.take_add_one, getElem?_blocksOf h, List.foldl_append]
  rfl

/-- Chaining ends in the state after the last block. -/
theorem chainState_last (padded : List Byte) :
    chainState iv compress padded (padded.length / 64) = chain iv compress padded := by
  rw [chainState, ← length_blocksOf, List.take_length, chain]

/-- R134 for any engine: its states over the padded message run in sequence from `IV` to what is serialised. -/
theorem chain_sequence (serialise : σ → List Byte) {lenBytes : Nat → Nat → List Byte}
    (hlen : ∀ v n, (lenBytes v n).length = n) (msg : List Byte) :
    ∃ H : Nat → σ, H 0 = iv ∧
      (∀ i, i < (msg.length + 8) / 64 + 1 → H (i + 1) = compress (H i) (((pad lenBytes msg).drop (64 * i)).take 64)) ∧
      serialise (chain iv compress (pad lenBytes msg)) = serialise (H ((msg.length + 8) / 64 + 1)) := by
  have hblocks : (pad lenBytes msg).length / 64 = (msg.length + 8) / 64 + 1 := by rw [length_pad hlen]; omega
  rw [← hblocks]
  exact ⟨chainState iv compress (pad lenBytes msg), chainState_zero .., fun _ => chainState_succ iv compress,
    congrArg serialise (chainState_last ..).symm⟩

end Sequence

/-- Settles O31: the hash states are `chainState`, the working variables the states after each number of steps. -/
theorem chainingIsSequential : Obligations.ChainingIsSequential := by
  refine ⟨fun msg => ⟨?_, ?_, ?_⟩, fun block => ⟨fun h => ?_, fun h => ?_, fun h => ?_⟩⟩
  · exact chain_sequence md5Iv md5Compress md5Serialise (fun v n => length_leBytes n v) msg
  · exact chain_sequence sha1Iv sha1Compress sha1Serialise length_beBytes msg
  · exact chain_sequence sha256Iv sha256Compress sha256Serialise length_beBytes msg
  · exact ⟨md5Steps (blockWords leVal block) h, md5Steps_zero .., fun t _ => md5Steps_succ _ h t, rfl, rfl⟩
  · exact ⟨sha1Steps (sha1Schedule block) h, sha1Steps_zero .., fun t _ => sha1Steps_succ _ h t, rfl, rfl⟩
  · exact ⟨sha256Steps (sha256Schedule block) h, sha256Steps_zero .., fun t _ => sha256Steps_succ _ h t, rfl, rfl⟩

end Sys2Proof.Machine
end

-- Message schedules.
section
/-! SUPPORT. The words of an extended schedule by their index, and the big-endian words of a block (42_hash_common R131,
43_sha1 R152). -/

namespace Sys2Proof.Machine

/-! ## The block's words (R131) -/

theorem beVal_lt (s : List Byte) : beVal s < 256 ^ s.length := by
  rw [beVal_eq_leVal_reverse, ← List.length_reverse]
  exact leVal_lt s.reverse

/-- A big-endian word of a block is the value of its four bytes, none of it lost in 32 bits. -/
theorem toNat_getD_blockWords_beVal (block : List Byte) {j : Nat} (h : j < 16) :
    ((blockWords beVal block).getD j 0).toNat = beVal ((block.drop (4 * j)).take 4) := by
  have hlt : beVal ((block.drop (4 * j)).take 4) < 2 ^ 32 :=
    (beVal_lt _).trans_le (Nat.pow_le_pow_right (n := 256) (by decide) (List.length_take_le 4 _))
  rw [getD_blockWords beVal block j h, BitVec.toNat_ofNat, Nat.mod_eq_of_lt hlt]

/-! ## The extended schedule (R152, R174) -/

section Extend

variable (next : List Word → Word) {ws : List Word} {n j : Nat}

theorem getD_extendSchedule_of_lt (h : j < ws.length) : (extendSchedule next n ws).getD j 0 = ws.getD j 0 := by
  rw [List.getD_eq_getElem?_getD, getElem?_extendSchedule next n ws j (by omega), if_pos h, List.getD_eq_getElem?_getD]

theorem getD_extendSchedule_of_ge (hge : ws.length ≤ j) (hlt : j < ws.length + n) :
    (extendSchedule next n ws).getD j 0 = next ((extendSchedule next n ws).take j) := by
  rw [List.getD_eq_getElem?_getD, getElem?_extendSchedule next n ws j hlt, if_neg (Nat.not_lt.2 hge), Option.getD_some]

end Extend

/-- Seen from the words before it, word `j - back` of a schedule is `back` words back. -/
theorem wordBack_take {ws : List Word} {j back : Nat} (hj : j ≤ ws.length) (hpos : 0 < back) (hback : back ≤ j) :
    wordBack (ws.take j) back = ws.getD (j - back) 0 := by
  rw [wordBack, List.length_take_of_le hj, List.getD_eq_getElem?_getD, List.getElem?_take_of_lt (by omega),
    List.getD_eq_getElem?_getD]

/-! ## SHA-1's schedule (R152) -/

/-- R9's rotation is the library's. -/
theorem rotl32_eq_rotateLeft (a : Word) {n : Nat} (h : n < 32) : rotl32 a n = a.rotateLeft n := by
  rw [rotl32, BitVec.rotateLeft_def, Nat.mod_eq_of_lt h]

@[simp] theorem length_sha1Schedule (block : List Byte) : (sha1Schedule block).length = 80 := by
  rw [sha1Schedule, length_extendSchedule, length_blockWords]

theorem getD_sha1Schedule_of_lt (block : List Byte) {j : Nat} (h : j < 16) :
    (sha1Schedule block).getD j 0 = (blockWords beVal block).getD j 0 :=
  getD_extendSchedule_of_lt sha1Next (by rwa [length_blockWords])

theorem getD_sha1Schedule_of_ge (block : List Byte) {j : Nat} (hge : 16 ≤ j) (hlt : j < 80) :
    (sha1Schedule block).getD j 0 = sha1Next ((sha1Schedule block).take j) :=
  getD_extendSchedule_of_ge sha1Next (by rwa [length_blockWords]) (by rwa [length_blockWords])

/-- Settles O32: the block's words are kept, and each later word is `sha1Next` of the words before it. -/
theorem sha1ScheduleRecurrence : Obligations.Sha1ScheduleRecurrence := by
  refine fun block _ => ⟨length_sha1Schedule block, fun j hj => ?_, fun j hge hlt => ?_⟩
  · rw [getD_sha1Schedule_of_lt block hj, toNat_getD_blockWords_beVal block hj]
  · have hlen : j ≤ (sha1Schedule block).length := by rw [length_sha1Schedule]; omega
    have back (k : Nat) (hpos : 0 < k) (hk : k ≤ 16) :
        wordBack ((sha1Schedule block).take j) k = (sha1Schedule block).getD (j - k) 0 :=
      wordBack_take hlen hpos (hk.trans hge)
    rw [getD_sha1Schedule_of_ge block hge hlt, sha1Next, rotl32_eq_rotateLeft _ (by decide),
      back 3 (by decide) (by decide), back 8 (by decide) (by decide), back 14 (by decide) (by decide),
      back 16 (by decide) (by decide)]

end Sys2Proof.Machine
end

-- Digests as bytes.
section
/-! SUPPORT. A sequence of words written out four bytes each, and byte `i` of word `j` in it (43_sha1 R156,
44_sha256 R177, 45_md5 R197). -/

namespace Sys2Proof.Machine

/-! ## Words written one after another -/

/-- The words in order, four bytes each; `digits` is `leBytes` (MD5) or `beBytes` (SHA-1, SHA-256). -/
def serialiseWords (digits : Nat → Nat → List Byte) (ws : List Word) : List Byte :=
  ws.flatMap fun w => digits w.toNat 4

theorem md5Serialise_eq (h : Md5State) : md5Serialise h = serialiseWords leBytes [h.a, h.b, h.c, h.d] := by
  simp [md5Serialise, serialiseWords]

theorem sha1Serialise_eq (h : Sha1State) : sha1Serialise h = serialiseWords beBytes [h.a, h.b, h.c, h.d, h.e] := by
  simp [sha1Serialise, serialiseWords]

theorem sha256Serialise_eq (h : Sha256State) :
    sha256Serialise h = serialiseWords beBytes [h.a, h.b, h.c, h.d, h.e, h.f, h.g, h.h] := by
  simp [sha256Serialise, serialiseWords]

section Words

variable {digits : Nat → Nat → List Byte} (hlen : ∀ v, (digits v 4).length = 4)
include hlen

theorem length_serialiseWords (ws : List Word) : (serialiseWords digits ws).length = 4 * ws.length := by
  simp [serialiseWords, List.length_flatMap, hlen, Nat.mul_comm]

/-- Byte `4j + i` of the words written out is byte `i` of word `j`. -/
theorem getElem?_serialiseWords {w : Word} {i : Nat} (hi : i < 4) : ∀ {ws : List Word} {j : Nat}, ws[j]? = some w →
    (serialiseWords digits ws)[4 * j + i]? = (digits w.toNat 4)[i]? := by
  intro ws
  induction ws with
  | nil => intro j hw; cases hw
  | cons x ws ih =>
    intro j hw
    have hcons : serialiseWords digits (x :: ws) = digits x.toNat 4 ++ serialiseWords digits ws := rfl
    cases j with
    | zero =>
      cases hw
      rw [hcons, Nat.mul_zero, Nat.zero_add, List.getElem?_append_left (by rwa [hlen])]
    | succ j =>
      rw [hcons, List.getElem?_append_right (by rw [hlen]; omega), hlen, ← ih hw]
      congr 1
      omega

end Words

/-! ## The digits of one word -/

theorem map_toNat_getElem?_leBytes (v : Nat) {n i : Nat} (h : i < n) :
    ((leBytes v n)[i]?).map BitVec.toNat = some (v / 256 ^ i % 256) := by
  rw [getElem?_leBytes n v i h, Option.map_some, BitVec.toNat_ofNat]

theorem map_toNat_getElem?_beBytes (v : Nat) {n i : Nat} (h : i < n) :
    ((beBytes v n)[i]?).map BitVec.toNat = some (v / 256 ^ (n - 1 - i) % 256) := by
  rw [getElem?_beBytes v h, Option.map_some, BitVec.toNat_ofNat]

/-! ## The digests (R156, R177, R197) -/

/-- Words written least significant byte first. -/
theorem serialiseWords_leBytes_digits (ws : List Word) :
    (serialiseWords leBytes ws).length = 4 * ws.length ∧ ∀ j i w, ws[j]? = some w → i < 4 →
      ((serialiseWords leBytes ws)[4 * j + i]?).map BitVec.toNat = some (w.toNat / 256 ^ i % 256) := by
  have hlen (v : Nat) : (leBytes v 4).length = 4 := length_leBytes 4 v
  refine ⟨length_serialiseWords hlen ws, fun j i w hw hi => ?_⟩
  rw [getElem?_serialiseWords hlen hi hw, map_toNat_getElem?_leBytes w.toNat hi]

/-- Words written most significant byte first. -/
theorem serialiseWords_beBytes_digits (ws : List Word) :
    (serialiseWords beBytes ws).length = 4 * ws.length ∧ ∀ j i w, ws[j]? = some w → i < 4 →
      ((serialiseWords beBytes ws)[4 * j + i]?).map BitVec.toNat = some (w.toNat / 256 ^ (3 - i) % 256) := by
  have hlen (v : Nat) : (beBytes v 4).length = 4 := length_beBytes v 4
  refine ⟨length_serialiseWords hlen ws, fun j i w hw hi => ?_⟩
  rw [getElem?_serialiseWords hlen hi hw, map_toNat_getElem?_beBytes w.toNat hi]

/-- Settles O59: each digest is its state's words written out in its engine's byte order. -/
theorem digestSerialisesWordsInOrder : Obligations.DigestSerialisesWordsInOrder := by
  refine ⟨fun h => ?_, fun h => ?_, fun h => ?_⟩
  · rw [md5Serialise_eq]
    exact serialiseWords_leBytes_digits _
  · rw [sha1Serialise_eq]
    exact serialiseWords_beBytes_digits _
  · rw [sha256Serialise_eq]
    exact serialiseWords_beBytes_digits _

end Sys2Proof.Machine
end

-- The UUID command.
section
/-! SUPPORT. Each end of UUID4 in the order checked (46_uuid R210), and the bytes of a forced sequence (R211). -/

namespace Sys2Proof.Machine

/-! ## The ends of the command -/

section Ends

variable {s : State}

theorem execUuid4_length (h : s.params.memSize < s.A.toNat + 16) : execUuid4 s = .next (raised .lengthError s) :=
  checkSource_fail h _

theorem execUuid4_bounds (h1 : s.A.toNat + 16 ≤ s.params.memSize) (h2 : s.params.memSize < s.D.toNat + 36) :
    execUuid4 s = .next (raised .boundsFault s) := by
  rw [execUuid4, checkSource_pass h1, checkDest_fail h2]

theorem execUuid4_stored {r : List Byte} (hr : sourceReady 16 s r) (hd : destReady 36 s) :
    execUuid4 s = .next (stored (uuidRender (uuidForce r)) 36 s) := by
  obtain ⟨hfits, hread⟩ := hr
  rw [execUuid4, checkSource_pass hfits, checkDest_pass hd, withSource_some hread]
  rfl

end Ends

theorem length_uuidRender_uuidForce {r : List Byte} (h : r.length = 16) : (uuidRender (uuidForce r)).length = 36 :=
  length_uuidRender ((length_uuidForce r).trans h)

/-- Settles O38: the command has one lemma per end, and the success end is one write of the string. -/
theorem uuid4WritesString : Obligations.Uuid4WritesString := fun s =>
  ⟨execUuid4_length, execUuid4_bounds, fun r hr hd =>
    ⟨length_uuidRender_uuidForce (memRead_length hr.2), _, execUuid4_stored hr hd, rfl,
      holdsAt_memWrite s.mem s.D.toNat (uuidRender (uuidForce r))⟩⟩

/-! ## The forced bits -/

/-- Keeping the low `k` bits and setting a pattern above them adds the pattern to the remainder. -/
theorem and_mask_or_eq_mod_add (y k a : Nat) : (y &&& (2 ^ k - 1)) ||| 2 ^ k * a = y % 2 ^ k + 2 ^ k * a := by
  have hlow : y % 2 ^ k < 2 ^ k := Nat.mod_lt _ (Nat.two_pow_pos k)
  rw [Nat.and_two_pow_sub_one_eq_mod, Nat.or_comm, ← Nat.two_pow_add_eq_or_of_lt hlow, Nat.add_comm]

theorem toNat_forceVersion (y : Byte) : (forceVersion y).toNat = y.toNat % 16 + 0x40 :=
  and_mask_or_eq_mod_add y.toNat 4 4

theorem toNat_forceVariant (y : Byte) : (forceVariant y).toNat = y.toNat % 64 + 0x80 :=
  and_mask_or_eq_mod_add y.toNat 6 2

/-! ## The bytes of a forced sequence -/

theorem getD_uuidForce_of_ne (r : List Byte) {i : Nat} (h6 : i ≠ 6) (h8 : i ≠ 8) :
    (uuidForce r).getD i 0 = r.getD i 0 := by
  simp only [uuidForce, List.getD_eq_getElem?_getD, List.getElem?_set_ne h8.symm, List.getElem?_set_ne h6.symm]

theorem getD_uuidForce_six {r : List Byte} (h : 6 < r.length) : (uuidForce r).getD 6 0 = forceVersion (r.getD 6 0) := by
  rw [uuidForce, List.getD_eq_getElem?_getD, List.getElem?_set_ne (by decide), List.getElem?_set_self h,
    Option.getD_some]

theorem getD_uuidForce_eight {r : List Byte} (h : 8 < r.length) :
    (uuidForce r).getD 8 0 = forceVariant (r.getD 8 0) := by
  rw [uuidForce, List.getD_eq_getElem?_getD, List.getElem?_set_self (by rwa [List.length_set]), Option.getD_some]

/-- Settles O39: the forced bytes one by one, and what each of the two changes does to its byte's value. -/
theorem forceSetsVersionAndVariant : Obligations.ForceSetsVersionAndVariant := by
  intro r hlen
  have h6 : 6 < r.length := by omega
  have h8 : 8 < r.length := by omega
  refine ⟨(length_uuidForce r).trans hlen, fun i _ => getD_uuidForce_of_ne r, ?_, ?_⟩
  · rw [getD_uuidForce_six h6, toNat_forceVersion]
  · rw [getD_uuidForce_eight h8, toNat_forceVariant]

end Sys2Proof.Machine
end

-- Steps.
section
/-! SUPPORT. What a step can do, said once, and what every step keeps: the invariant (10_state R25, R29, 20_memory R50)
and the parameters (00_scope R4). -/

namespace Sys2Proof.Machine

/-! ## The host's moves, inverted (30_encoding R76) -/

/-- A move that leaves `M`, `CAUSE` and the parameters alone. -/
def keepsMachine (s t : State) : Prop := t.params = s.params ∧ t.mem = s.mem ∧ t.cause = s.cause

theorem writeReg_next {r : Nat} {v : Int} {s t : State} (h : writeReg r v s = .next t) :
    (∃ c, runCommand c s = .next t) ∨ keepsMachine s t := by
  unfold writeReg at h
  split at h
  case h_5 => exact .inl ⟨_, h⟩
  all_goals
    cases h
    exact .inr ⟨rfl, rfl, rfl⟩

theorem loadByte_next {a : Nat} {s t : State} (h : loadByte a s = .next t) : keepsMachine s t := by
  unfold loadByte at h
  split at h
  · cases h
    exact ⟨rfl, rfl, rfl⟩
  · cases h

/-- A host move runs a command word, resets, stores one byte below MEM_SIZE, or keeps `M` and `CAUSE`. -/
theorem hostMove_next {m : HostMove} {s t : State} (h : hostMove m s = .next t) :
    (∃ c, runCommand c s = .next t) ∨ t = resetMove s ∨
    (∃ a y, a < s.params.memSize ∧ t = { s with mem := memPut s.mem a y }) ∨ keepsMachine s t := by
  cases hm : moveAllowed s.params m with
  | false => cases (hostMove_refused hm).symm.trans h
  | true =>
    simp only [hostMove, if_pos hm] at h
    cases m with
    | hwr r v => exact (writeReg_next h).imp_right fun hk => .inr (.inr hk)
    | hrd r =>
      cases h
      exact .inr (.inr (.inr ⟨rfl, rfl, rfl⟩))
    | hsb a v =>
      cases h
      exact .inr (.inr (.inl ⟨a, _, of_decide_eq_true (Bool.and_eq_true_iff.1 hm).1, rfl⟩))
    | hlb a => exact .inr (.inr (.inr (loadByte_next h)))
    | cmd c => exact .inl ⟨c, h⟩
    | reset =>
      cases h
      exact .inr (.inl rfl)

/-- A step idles or makes the first move of the script. -/
theorem step_next {s t : State} (h : step s = .next t) :
    t = s ∨ ∃ m rest, s.script = m :: rest ∧ hostMove m { s with script := rest } = .next t := by
  cases hs : s.script with
  | nil =>
    rw [step, hs] at h
    cases h
    exact .inl rfl
  | cons m rest => exact .inr ⟨m, rest, rfl, (step_of_script hs).symm.trans h⟩

/-! ## The invariant -/

theorem legalCause_causeCode {k : Cause} (h : k ≠ .encodingError) : legalCause (causeCode k) = true := by
  cases k
  case encodingError => exact absurd rfl h
  all_goals rfl

theorem inv_raised {s : State} (h : State.Inv s) {k : Cause} (hk : k ≠ .encodingError) : State.Inv (raised k s) := by
  obtain ⟨hwf, hbelow, -⟩ := h
  exact ⟨hwf, hbelow, legalCause_causeCode hk⟩

theorem inv_stored {s : State} (h : State.Inv s) {out : List Byte} (hfit : s.D.toNat + out.length ≤ s.params.memSize)
    (v : Nat) : State.Inv (stored out v s) := by
  obtain ⟨hwf, hbelow, -⟩ := h
  exact ⟨wf_memWrite out hwf _, memBelow_memWrite out hbelow _ hfit, rfl⟩

theorem exec_keeps_inv {i : Instr} {s t : State} (h : State.Inv s) (ht : exec i s = .next t) : State.Inv t := by
  rcases exec_cases i s with ⟨k, hk, he⟩ | ⟨-, p, he⟩ | ⟨-, hfit, out, hlen, he⟩ | ⟨-, he⟩ <;>
    cases he.symm.trans ht
  case inl => exact inv_raised h hk.1
  case inr.inl =>
    obtain ⟨hwf, hbelow, -⟩ := h
    exact ⟨hwf, hbelow, rfl⟩
  case inr.inr.inl => exact inv_stored h (hlen ▸ hfit) _

theorem runCommand_keeps_inv {c : Byte} {s t : State} (h : State.Inv s) (ht : runCommand c s = .next t) :
    State.Inv t := by
  rcases runCommand_cases c s with ⟨i, -, he⟩ | he
  · exact exec_keeps_inv h (he.symm.trans ht)
  · cases he.symm.trans ht
    exact inv_raised h (by decide)

theorem hostMove_keeps_inv {m : HostMove} {s t : State} (h : State.Inv s) (ht : hostMove m s = .next t) :
    State.Inv t := by
  have ⟨hwf, hbelow, hcause⟩ := h
  rcases hostMove_next ht with ⟨c, hc⟩ | rfl | ⟨a, y, ha, rfl⟩ | ⟨hp, hm, hc⟩
  · exact runCommand_keeps_inv h hc
  · exact ⟨rfl, rfl, rfl⟩
  · exact ⟨wf_memPut hwf a y, memBelow_memPut hbelow ha y, hcause⟩
  · exact ⟨hm ▸ hwf, hp ▸ hm ▸ hbelow, hc ▸ hcause⟩

/-- Settles O44: a step idles or is one host move, and no move breaks the invariant. -/
theorem stepKeepsInvariant : Obligations.StepKeepsInvariant := by
  intro s t hs ht
  rcases step_next ht with rfl | ⟨m, rest, -, hmove⟩
  · exact hs
  · exact hostMove_keeps_inv (s := { s with script := rest }) hs hmove

/-- Settles O43: power-up leaves no entry in `M` and the success code in `CAUSE`. -/
theorem resetHasInvariant : Obligations.ResetHasInvariant := ⟨⟨rfl, rfl, rfl⟩, reset_cause, memByte_nil⟩

/-! ## What no command writes (10_state R21) -/

/-- The operand registers and the model's own fields are those of the state before. -/
def keepsOperands (s t : State) : Prop :=
  t.A = s.A ∧ t.B = s.B ∧ t.D = s.D ∧ t.params = s.params ∧ t.script = s.script ∧ t.replies = s.replies ∧
    t.resets = s.resets

theorem exec_keepsOperands {i : Instr} {s t : State} (ht : exec i s = .next t) : keepsOperands s t := by
  rcases exec_cases i s with ⟨k, -, he⟩ | ⟨-, p, he⟩ | ⟨-, -, out, -, he⟩ | ⟨-, he⟩ <;>
    cases he.symm.trans ht <;> exact ⟨rfl, rfl, rfl, rfl, rfl, rfl, rfl⟩

/-- Settles O47: each of the three ends of a command is an update of other fields. -/
theorem commandsNeverWriteOperandRegisters : Obligations.CommandsNeverWriteOperandRegisters :=
  fun _ _ _ => exec_keepsOperands

/-! ## The parameters (R4) -/

theorem runCommand_params {c : Byte} {s t : State} (ht : runCommand c s = .next t) : t.params = s.params := by
  rcases runCommand_cases c s with ⟨i, -, he⟩ | he
  · obtain ⟨-, -, -, hp, -⟩ := exec_keepsOperands (he.symm.trans ht)
    exact hp
  · cases he.symm.trans ht
    rfl

theorem hostMove_params {m : HostMove} {s t : State} (ht : hostMove m s = .next t) : t.params = s.params := by
  rcases hostMove_next ht with ⟨c, hc⟩ | rfl | ⟨a, y, -, rfl⟩ | ⟨hp, -, -⟩
  · exact runCommand_params hc
  · exact resetMove_params s
  · rfl
  · exact hp

/-- Settles O49: no host move, and so no step, changes the parameters. -/
theorem stepKeepsParameters : Obligations.StepKeepsParameters := by
  intro s t ht
  rcases step_next ht with rfl | ⟨m, rest, -, hmove⟩
  · rfl
  · exact hostMove_params (s := { s with script := rest }) hmove

end Sys2Proof.Machine
end

-- Host moves.
section
/-! SUPPORT. What each move of a script does and which moves are refused (30_encoding R76, R77), and commands placed in
a script (R79). -/

namespace Sys2Proof.Machine

/-! ## Patterns of integers (00_scope R8, 30_encoding R76) -/

/-- The pattern of an integer is that of its residue. -/
theorem ofInt_eq_ofNat_emod (w : Nat) (v : Int) : BitVec.ofInt w v = BitVec.ofNat w (v % 2 ^ w).toNat := by
  rw [← toNat_sext, Int.toNat_natCast, BitVec.ofNat_toNat, BitVec.setWidth_eq, sext]

theorem ofInt_eq_ofNat_toNat (w : Nat) {v : Int} (h : 0 ≤ v) : BitVec.ofInt w v = BitVec.ofNat w v.toNat := by
  obtain ⟨n, rfl⟩ := Int.eq_ofNat_of_zero_le h
  exact BitVec.ofInt_natCast w n

/-! ## Register writes (R76) -/

theorem hwrAllowed_word {p : Params} {r : Nat} (hr : r ≤ 2) (v : Int) :
    hwrAllowed p r v = true ↔ 0 ≤ v ∧ v < 2 ^ 32 := by
  interval_cases r <;> simp [hwrAllowed]

theorem hwrAllowed_X (p : Params) (v : Int) :
    hwrAllowed p 4 v = true ↔ -(2 ^ (p.xw - 1)) ≤ v ∧ v < 2 ^ p.xw := by
  simp [hwrAllowed]

theorem hwrAllowed_cmd (p : Params) (v : Int) : hwrAllowed p 6 v = true ↔ 0 ≤ v ∧ v < 256 := by
  simp [hwrAllowed]

theorem hwrAllowed_ge_seven (p : Params) {r : Nat} (hr : 7 ≤ r) (v : Int) : hwrAllowed p r v = false := by
  obtain ⟨k, rfl⟩ := Nat.exists_eq_add_of_le' hr
  rfl

theorem step_hwr {s : State} {rest : List HostMove} {r : Nat} {v : Int} (hs : s.script = .hwr r v :: rest)
    (h : hwrAllowed s.params r v = true) : step s = writeReg r v { s with script := rest } := by
  rw [step_of_script hs]
  exact hostMove_hwr h

/-- Settles O53: an admitted write is its arm of `writeReg`, with the pattern of the integer written as a natural. -/
theorem hostWriteStoresRegister : Obligations.HostWriteStoresRegister := by
  intro s rest r v hs
  refine ⟨fun hlo hhi => ?_, ?_, ?_, ?_⟩
  · rw [← ofInt_eq_ofNat_toNat 32 hlo]
    refine ⟨?_, ?_, ?_⟩ <;> rintro rfl <;> exact step_hwr hs ((hwrAllowed_word (by decide) v).2 ⟨hlo, hhi⟩)
  · rintro rfl hlo hhi
    rw [← ofInt_eq_ofNat_emod]
    exact step_hwr hs ((hwrAllowed_X _ v).2 ⟨hlo, hhi⟩)
  · rintro (rfl | rfl) <;> exact step_hwr hs rfl
  · rintro rfl hlo hhi
    rw [← ofInt_eq_ofNat_toNat 8 hlo]
    exact step_hwr hs ((hwrAllowed_cmd _ v).2 ⟨hlo, hhi⟩)

/-! ## Register reads and bytes (R63, R76) -/

theorem readReg_of_mem {s : State} {r v : Nat} (h : (r, v) ∈ [(0, s.A.toNat), (1, s.B.toNat), (2, s.D.toNat),
    (3, s.N.toNat), (4, s.X.toNat), (5, s.cause.toNat), (6, 0)]) : r ≤ 6 ∧ readReg r s = v := by
  simp only [List.mem_cons, Prod.mk.injEq, List.not_mem_nil, or_false] at h
  rcases h with ⟨rfl, rfl⟩ | ⟨rfl, rfl⟩ | ⟨rfl, rfl⟩ | ⟨rfl, rfl⟩ | ⟨rfl, rfl⟩ | ⟨rfl, rfl⟩ | ⟨rfl, rfl⟩ <;>
    exact ⟨by decide, rfl⟩

/-- Settles O54: the rows are those of `readReg`, and the read appends its value to the replies. -/
theorem hostReadGivesPattern : Obligations.HostReadGivesPattern := by
  intro s rest r v hs hrow
  obtain ⟨hr, hv⟩ := readReg_of_mem hrow
  rw [step_of_script hs, hostMove_hrd hr, ← hv]
  rfl

theorem step_hlb_written {s : State} {rest : List HostMove} {a v : Nat} {y : Byte} (hs : s.script = .hlb a :: rest)
    (ha : a < s.params.memSize) (hy : memByte s.mem a = some y) (hv : y.toNat = v) :
    step s = .next { s with script := rest, replies := s.replies ++ [v] } := by
  have hmove : hostMove (.hlb a) { s with script := rest } = loadByte a { s with script := rest } := hostMove_hlb ha
  rw [step_of_script hs, hmove, loadByte, hy, ← hv]
  rfl

theorem step_hlb_unwritten {s : State} {rest : List HostMove} {a : Nat} (hs : s.script = .hlb a :: rest)
    (ha : a < s.params.memSize) (hnone : memByte s.mem a = none) : step s = .fault .unwrittenByte := by
  have hmove : hostMove (.hlb a) { s with script := rest } = loadByte a { s with script := rest } := hostMove_hlb ha
  rw [step_of_script hs, hmove, loadByte, hnone]

/-- Settles O55: the store is a write of one byte, and the load finds it. -/
theorem hostStoreThenLoad : Obligations.HostStoreThenLoad := by
  intro s rest a v hs ha hv
  have hbyte : memByte (memPut s.mem a (BitVec.ofNat 8 v)) a = some (BitVec.ofNat 8 v) := memByte_memPut_same ..
  have hval : (BitVec.ofNat 8 v).toNat = v := Nat.mod_eq_of_lt hv
  exact ⟨_, (step_of_script hs).trans (hostMove_hsb ha hv), rfl, holdsAt_memWrite s.mem a [BitVec.ofNat 8 v],
    step_hlb_written rfl ha hbyte hval⟩

/-! ## Refusals (R76) -/

theorem step_refused {s : State} {m : HostMove} {rest : List HostMove} (hs : s.script = m :: rest)
    (h : moveAllowed s.params m = false) : step s = .refused .moveNotAllowed := by
  rw [step_of_script hs]
  exact hostMove_refused h

/-- Settles O56: in each clause the move's own check fails. -/
theorem moveOutsideTableIsRefused : Obligations.MoveOutsideTableIsRefused := by
  intro s m rest hs houtside
  refine step_refused hs ?_
  rcases houtside with ⟨r, v, rfl, hbad⟩ | ⟨r, rfl, hr⟩ | ⟨a, v, rfl, hbad⟩ | ⟨a, rfl, ha⟩
  · rcases hbad with hr | ⟨hr, hv⟩ | ⟨rfl, hv⟩ | ⟨rfl, hv⟩
    · exact hwrAllowed_ge_seven _ hr v
    · exact Bool.eq_false_iff.2 fun h => by have := (hwrAllowed_word hr v).1 h; omega
    · exact Bool.eq_false_iff.2 fun h => by have := (hwrAllowed_X s.params v).1 h; omega
    · exact Bool.eq_false_iff.2 fun h => by have := (hwrAllowed_cmd s.params v).1 h; omega
  · exact decide_eq_false (by omega)
  · rw [moveAllowed, ← Bool.decide_and]
    exact decide_eq_false (by omega)
  · exact decide_eq_false (by omega)

/-! ## RESET (70_reset R250) -/

/-- Settles O57: the move is `resetMove`, after which no byte is listed. -/
theorem resetMoveClearsCauseAndMemory : Obligations.ResetMoveClearsCauseAndMemory := by
  intro s rest hs
  refine ⟨resetMove { s with script := rest }, ?_, rfl, memByte_nil, rfl, rfl, rfl, rfl, fun a ha => ?_⟩
  · rw [step_of_script hs, hostMove_reset]
  · exact step_hlb_unwritten rfl ha (memByte_nil a)

/-! ## Commands in a script (R79) -/

/-- Settles O4: a move that writes `CMD` is `runCommand` at the state with the move taken off. -/
theorem stepRunsDecodedCommand : Obligations.StepRunsDecodedCommand := by
  intro s c rest hs
  rw [step_of_script hs, hostMove_cmd]
  exact ⟨fun i hi => runCommand_ok hi _, fun hc => runCommand_error hc _⟩

theorem decode_encode (i : Instr) : decode (encode i) = .ok i := by cases i <;> rfl

/-- Settles O2: the word is looked up in the table, and its two halves are the fields it is put together from. -/
theorem decodeUndoesEncode : Obligations.DecodeUndoesEncode := fun i =>
  ⟨decode_encode i, BitVec.extractLsb'_append_eq_left, BitVec.extractLsb'_append_eq_right⟩

/-- Settles O5: the word placed is the command's own, and taking it off the script gives the state back. -/
theorem fetchWordRunsNextAndEmptyScriptIdles : Obligations.FetchWordRunsNextAndEmptyScriptIdles := by
  refine ⟨fun s i => ?_, fun s hs => by rw [step, hs]⟩
  rw [step_of_script (withFetchWord_script s 8 _), commandWordOf_toNat, hostMove_cmd, runCommand_ok (decode_encode i)]
  rfl

/-! ## Pseudo-instructions (R77) -/

theorem length_fillMoves (vs : List Nat) : ∀ a, (fillMoves a vs).length = vs.length := by
  induction vs with
  | nil => exact fun _ => rfl
  | cons v vs ih => exact fun a => congrArg (· + 1) (ih (a + 1))

/-- Move `i` of an HFILL stores value `i` at offset `a + i`. -/
theorem getElem?_fillMoves (vs : List Nat) :
    ∀ a i, i < vs.length → (fillMoves a vs)[i]? = some (.hsb (a + i) (vs.getD i 0)) := by
  induction vs with
  | nil => intro a i hi; cases hi
  | cons v vs ih =>
    intro a i hi
    cases i with
    | zero => rfl
    | succ i =>
      rw [fillMoves, List.getElem?_cons_succ, ih _ _ (Nat.lt_of_succ_lt_succ hi), List.getD_cons_succ,
        Nat.add_right_comm, Nat.add_assoc]

/-- Settles O58: DIGEST by its three names, HFILL by its index. -/
theorem pseudoInstructionsExpand : Obligations.PseudoInstructionsExpand := by
  refine ⟨rfl, rfl, rfl, fun name h5 h1 h256 => ?_, fun a vs =>
    ⟨length_fillMoves vs a, getElem?_fillMoves vs a, fun _ => rfl⟩⟩
  rw [digestMoves, if_neg h5, if_neg h1, if_neg h256]

end Sys2Proof.Machine
end

-- Words and memory.
section
/-! SUPPORT. The arithmetic of the 32-bit word operations (00_scope R9), MemRead and MemWrite (R11), and the memory that
is determined by its bytes (10_state R29). -/

namespace Sys2Proof.Machine

/-! ## Rotations (R9) -/

section Rotations

variable (a : Word) {n : Nat}

theorem rotr32_eq_rotateRight (h : n < 32) : rotr32 a n = a.rotateRight n := by
  rw [rotr32, rotl32, BitVec.rotateRight_def, Nat.mod_eq_of_lt h, Nat.sub_sub_self h.le, BitVec.or_comm]

/-- The two shifted parts of a rotation share no bit, so joining them is adding them. -/
theorem toNat_rotl32 (h : n < 32) :
    (rotl32 a n).toNat = (a.toNat * 2 ^ n) % 2 ^ 32 + a.toNat / 2 ^ (32 - n) := by
  have hsplit : 2 ^ 32 = 2 ^ n * 2 ^ (32 - n) := (pow_mul_pow_sub 2 h.le).symm
  have hhigh : a.toNat * 2 ^ n % 2 ^ 32 = 2 ^ n * (a.toNat % 2 ^ (32 - n)) := by
    rw [hsplit, Nat.mul_comm a.toNat, Nat.mul_mod_mul_left]
  have hlow : a.toNat / 2 ^ (32 - n) < 2 ^ n := by
    rw [Nat.div_lt_iff_lt_mul (Nat.two_pow_pos _), ← hsplit]
    exact a.isLt
  rw [rotl32, BitVec.toNat_or, BitVec.toNat_shiftLeft, BitVec.toNat_ushiftRight, Nat.shiftLeft_eq,
    Nat.shiftRight_eq_div_pow, hhigh, Nat.two_pow_add_eq_or_of_lt hlow]

theorem rotateLeft_rotateRight (h : n < 32) : (a.rotateRight n).rotateLeft n = a := by
  apply BitVec.eq_of_getElem_eq
  intro i hi
  simp only [BitVec.getElem_rotateLeft, BitVec.getElem_rotateRight, Nat.mod_eq_of_lt h]
  split
  · rw [dif_neg (by omega)]
    congr 1
    omega
  · rw [dif_pos (by omega)]
    congr 1
    omega

end Rotations

theorem toNat_complement (a : Word) : (~~~a).toNat = 0xFFFFFFFF - a.toNat := BitVec.toNat_not

theorem toNat_shr32 (a : Word) (n : Nat) : (shr32 a n).toNat = a.toNat / 2 ^ n := by
  rw [shr32, BitVec.toNat_ushiftRight, Nat.shiftRight_eq_div_pow]

/-- Settles O8: the rotation is a sum of shifted parts, and the two rotations are the library's, which undo each
other. -/
theorem wordOperationsFollowArithmetic : Obligations.WordOperationsFollowArithmetic := by
  refine ⟨BitVec.toNat_add, toNat_complement, fun a n _ hn => ⟨toNat_rotl32 a hn, rfl, ?_, toNat_shr32 a n⟩⟩
  rw [rotr32_eq_rotateRight a hn, rotl32_eq_rotateLeft _ hn, rotateLeft_rotateRight a hn]

/-! ## The primitives (R11) -/

/-- Settles O9: MemRead by its bytes, MemWrite by read after write. -/
theorem memoryPrimitives : Obligations.MemoryPrimitives :=
  ⟨fun m a n s => memRead_eq_some_iff m n a s, fun m a s => ⟨holdsAt_memWrite m a s, memRead_memWrite m a s⟩⟩

/-! ## The canonical form -/

theorem memByte_cons_self (k : Nat) (y : Byte) (m : Memory) : memByte ((k, y) :: m) k = some y := if_pos rfl

theorem memByte_cons_of_ne {k a : Nat} (h : k ≠ a) (y : Byte) (m : Memory) :
    memByte ((k, y) :: m) a = memByte m a := if_neg h

/-- No byte lies at an offset below all that are listed. -/
theorem memByte_eq_none_of_forall_lt {m : Memory} {a : Nat} (h : ∀ c ∈ m, a < c.1) : memByte m a = none := by
  cases hb : memByte m a with
  | none => rfl
  | some y => exact absurd (h _ (memByte_mem hb)) (Nat.lt_irrefl a)

/-- The first entry of a canonical memory lies at its least offset, so reading alike fixes it. -/
theorem canonical_head_le {k k' : Nat} {y y' : Byte} {m m' : Memory} (hk : ∀ c ∈ m, k < c.1)
    (hread : memByte ((k, y) :: m) k' = memByte ((k', y') :: m') k') : k ≤ k' := by
  by_contra hlt
  have hnone : memByte ((k, y) :: m) k' = none := by
    rw [memByte_cons_of_ne (by omega)]
    exact memByte_eq_none_of_forall_lt fun c hc => (Nat.lt_of_not_le hlt).trans (hk c hc)
  rw [hnone, memByte_cons_self] at hread
  cases hread

theorem canonical_ext : ∀ {m m' : Memory}, Memory.wf m = true → Memory.wf m' = true →
    (∀ a, memByte m a = memByte m' a) → m = m' := by
  intro m
  induction m with
  | nil =>
    intro m' _ _ hread
    cases m' with
    | nil => rfl
    | cons c m' => cases (hread c.1).trans (memByte_cons_self c.1 c.2 m')
  | cons c m ih =>
    obtain ⟨k, y⟩ := c
    intro m' hm hm' hread
    cases m' with
    | nil => cases (memByte_cons_self k y m).symm.trans (hread k)
    | cons c' m' =>
      obtain ⟨k', y'⟩ := c'
      obtain ⟨hk, hwf⟩ := wf_cons.1 hm
      obtain ⟨hk', hwf'⟩ := wf_cons.1 hm'
      obtain rfl : k = k' :=
        Nat.le_antisymm (canonical_head_le hk (hread k')) (canonical_head_le hk' (hread k).symm)
      obtain rfl : y = y' := by simpa only [memByte_cons_self, Option.some.injEq] using hread k
      refine congrArg _ (ih hwf hwf' fun a => ?_)
      by_cases ha : k = a
      · rw [memByte_eq_none_of_forall_lt (ha ▸ hk), memByte_eq_none_of_forall_lt (ha ▸ hk')]
      · rw [← memByte_cons_of_ne ha y m, ← memByte_cons_of_ne ha y m', hread a]

/-- Settles O10: the least offsets agree, then the rest by induction. -/
theorem canonicalMemoryIsItsContents : Obligations.CanonicalMemoryIsItsContents := fun _ _ => canonical_ext

end Sys2Proof.Machine
end

-- Frames of the commands.
section
/-! SUPPORT. What the readers and the writing commands leave unchanged (40_codec_read section 1, 20_memory
section 2). -/

namespace Sys2Proof.Machine

theorem writeLen_reader {i : Instr} (h : i ∈ [Instr.rduBe, .rduLe, .rdS64be, .rdU64be]) (s : State) :
    writeLen i s = 0 := by
  simp only [List.mem_cons, List.not_mem_nil, or_false] at h
  rcases h with rfl | rfl | rfl | rfl <;> rfl

/-- A reader ends in an error or with a loaded value. -/
theorem exec_reader_next {i : Instr} (hi : i ∈ [Instr.rduBe, .rduLe, .rdS64be, .rdU64be]) {s t : State}
    (ht : exec i s = .next t) : (∃ k, t = raised k s) ∨ ∃ p, t = loaded s p := by
  rcases exec_cases i s with ⟨k, -, he⟩ | ⟨-, p, he⟩ | ⟨hlen, -⟩ | ⟨-, he⟩
  · cases he.symm.trans ht
    exact .inl ⟨k, rfl⟩
  · cases he.symm.trans ht
    exact .inr ⟨p, rfl⟩
  · exact absurd (writeLen_reader hi s) hlen.ne'
  · cases he.symm.trans ht

/-- A command with a write extent ends in an error or with that many bytes stored. -/
theorem exec_writer_next {i : Instr} {s t : State} (hi : 0 < writeLen i s) (ht : exec i s = .next t) :
    (∃ k, t = raised k s) ∨ ∃ out, out.length = writeLen i s ∧ t = stored out (resultNumber i s) s := by
  rcases exec_cases i s with ⟨k, -, he⟩ | ⟨hlen, -⟩ | ⟨-, -, out, hout, he⟩ | ⟨-, he⟩
  · cases he.symm.trans ht
    exact .inl ⟨k, rfl⟩
  · omega
  · cases he.symm.trans ht
    exact .inr ⟨out, hout, rfl⟩
  · cases he.symm.trans ht

/-- Settles O15: an error keeps `X`, a load sets `CAUSE` to 0, and neither touches anything else. -/
theorem readersChangeOnlyXAndCause : Obligations.ReadersChangeOnlyXAndCause := by
  intro i s t hi ht
  rcases exec_reader_next hi ht with ⟨k, rfl⟩ | ⟨p, rfl⟩
  · exact ⟨rfl, rfl, rfl, rfl, rfl, rfl, fun _ => rfl, rfl, rfl, rfl, fun _ => rfl⟩
  · exact ⟨rfl, rfl, rfl, rfl, rfl, rfl, fun _ => rfl, rfl, rfl, rfl, fun hc => absurd rfl hc⟩

/-- The lengths the obligations list for the writing commands are their write lengths. -/
theorem writeLen_of_mem {i : Instr} {n : Nat} {s : State}
    (h : (i, n) ∈ [(Instr.wrxLe, max 8 (byteLen s.X.toNat)), (.wrS64be, 8), (.wrU64be, 8), (.md5, 16), (.sha1, 20),
      (.sha256, 32), (.uuid4, 36)]) : n = writeLen i s ∧ 0 < n := by
  simp only [List.mem_cons, Prod.mk.injEq, List.not_mem_nil, or_false] at h
  rcases h with ⟨rfl, rfl⟩ | ⟨rfl, rfl⟩ | ⟨rfl, rfl⟩ | ⟨rfl, rfl⟩ | ⟨rfl, rfl⟩ | ⟨rfl, rfl⟩ | ⟨rfl, rfl⟩ <;>
    exact ⟨rfl, by omega⟩

/-- Settles O22: an error is one change of `CAUSE`, a success one write of the command's length. -/
theorem writingCommandsFrame : Obligations.WritingCommandsFrame := by
  intro i n s t hi ht
  obtain ⟨rfl, hpos⟩ := writeLen_of_mem hi
  rcases exec_writer_next hpos ht with ⟨k, rfl⟩ | ⟨out, hlen, rfl⟩
  · exact ⟨rfl, rfl, rfl, rfl, rfl, rfl, rfl, rfl, fun _ => rfl, fun _ _ => rfl⟩
  · refine ⟨rfl, rfl, rfl, rfl, rfl, rfl, rfl, rfl, fun hc => absurd rfl hc, fun a ha => ?_⟩
    exact memByte_memWrite_outside (hlen ▸ ha)

end Sys2Proof.Machine
end

-- Readers side by side.
section
/-! SUPPORT. The two byte orders and the two reader bodies on the same bytes (40_codec_read sections 3, 5 and 7). -/

namespace Sys2Proof.Machine

/-! ## The mirror law -/

/-- Settles O16: on `b` and on its reverse the two readers have one value to test and to load. -/
theorem mirrorLaw : Obligations.MirrorLaw := by
  refine ⟨beVal_eq_leVal_reverse, fun s s' b hp hs hs' => ?_⟩
  by_cases hv : 2 ^ s.params.xw ≤ beVal b
  · have hv' : 2 ^ s'.params.xw ≤ leVal b.reverse := by rwa [hp, ← beVal_eq_leVal_reverse]
    exact ⟨_, _, readRange_precision hs hv, readRange_precision hs' hv', rfl, .inr rfl,
      fun hc => absurd hc (causeCode_ne_success .precisionFault)⟩
  · have hlt : beVal b < 2 ^ s.params.xw := Nat.lt_of_not_le hv
    have hlt' : leVal b.reverse < 2 ^ s'.params.xw := by rwa [hp, ← beVal_eq_leVal_reverse]
    refine ⟨_, _, readRange_loaded hs hlt, readRange_loaded hs' hlt', rfl, .inl rfl, fun _ => ?_⟩
    exact (toNat_zext hlt').trans ((beVal_eq_leVal_reverse b).symm.trans (toNat_zext hlt).symm)

/-! ## Fixed-length and range readers -/

theorem two_pow_64_le_two_pow_xw (s : State) : 2 ^ 64 ≤ 2 ^ s.params.xw :=
  Nat.pow_le_pow_right (by decide) (by have := xw_ge s; omega)

theorem beVal_lt_two_pow_64 {bytes : List Byte} (h : bytes.length = 8) : beVal bytes < 2 ^ 64 := by
  have hlt := beVal_lt bytes
  rw [h] at hlt
  exact hlt

/-- The signed reading of a 64-bit pattern is the pattern modulo `2^64`. -/
theorem sval_64_emod (u : Nat) : sval 64 u % 2 ^ 64 = (u : Int) % 2 ^ 64 := by
  rw [sval]
  split
  · rfl
  · exact Int.sub_emod_right ..

theorem sval_64_of_lt {u : Nat} (h : u < 2 ^ 63) : sval 64 u = u := if_pos h

/-- Sign extension to at least 64 bits keeps bits 63:0. -/
theorem toNat_sext_sval_64_mod {W u : Nat} (hW : 64 ≤ W) (hu : u < 2 ^ 64) :
    (sext W (sval 64 u)).toNat % 2 ^ 64 = u := by
  have hdvd : (2 : Int) ^ 64 ∣ 2 ^ W := pow_dvd_pow 2 hW
  have hmod : ((sext W (sval 64 u)).toNat : Int) % 2 ^ 64 = (u : Int) % 2 ^ 64 := by
    rw [toNat_sext, Int.emod_emod_of_dvd _ hdvd, sval_64_emod]
  omega

/-- A value below `2^63` is extended with zeros. -/
theorem toNat_sext_sval_64_of_lt {W u : Nat} (hW : 64 ≤ W) (hu : u < 2 ^ 63) : (sext W (sval 64 u)).toNat = u := by
  have hlt : u < 2 ^ W := (hu.trans (by decide)).trans_le (Nat.pow_le_pow_right (by decide) hW)
  rw [sval_64_of_lt hu, sext, BitVec.ofInt_natCast, BitVec.toNat_ofNat, Nat.mod_eq_of_lt hlt]

/-- Settles O17: 8 bytes give a value that both readers accept, and the sign extension keeps its 64 bits. -/
theorem fixedAndRangeReadersAgree : Obligations.FixedAndRangeReadersAgree := by
  intro s bytes hs hB
  obtain ⟨hfits, hread⟩ := hs
  have hlt := beVal_lt_two_pow_64 (memRead_length hread)
  have hxw : 64 ≤ s.params.xw := by have := xw_ge s; omega
  have hltX := hlt.trans_le (two_pow_64_le_two_pow_xw s)
  have hrange : rangeReady s bytes :=
    ⟨by omega, by omega, by rw [hB, Nat.add_sub_cancel_left]; exact hread⟩
  have hunsigned := readFixed_ready zext ⟨hfits, hread⟩
  have hsigned := readFixed_ready (fun W u => sext W (sval 64 u)) ⟨hfits, hread⟩
  refine ⟨hunsigned.trans (readRange_loaded hrange hltX).symm, _, _, hunsigned, hsigned, toNat_zext hltX, ?_,
    fun h63 => ?_⟩
  · exact (toNat_sext_sval_64_mod hxw hlt).trans (toNat_zext hltX).symm
  · exact (toNat_sext_sval_64_of_lt hxw h63).trans (toNat_zext hltX).symm

end Sys2Proof.Machine
end

-- Round trips.
section
/-! SUPPORT. A writer's bytes read back by the reader of the same format, and the writers side by side (41_codec_write
section 6). -/

namespace Sys2Proof.Machine

/-! ## Digits written and read -/

theorem beVal_beBytes (v n : Nat) : beVal (beBytes v n) = v % 256 ^ n := by
  rw [beVal_eq_leVal_reverse, beBytes, List.reverse_reverse, leVal_leBytes]

/-- What a writing command stored at `D` is the read extent of a reader sent there (30_encoding R76: HWR A d). -/
theorem sourceReady_stored {n : Nat} {s : State} {out : List Byte} (hout : out.length = n) (hd : destReady n s)
    (v : Nat) : sourceReady n { stored out v s with A := s.D } out :=
  ⟨hd, hout ▸ memRead_memWrite s.mem s.D.toNat out⟩

/-! ## The 64-bit formats -/

/-- A 64-bit reader loads the low 64 bits of what a 64-bit writer was given. -/
theorem readFixed_stored (ext : (W : Nat) → Nat → BitVec W) {s : State} (hd : destReady 8 s) (v : Nat) :
    readFixed ext { stored (beBytes s.X.toNat 8) v s with A := s.D } =
      .next (loaded { stored (beBytes s.X.toNat 8) v s with A := s.D } (ext s.params.xw (s.X.toNat % 2 ^ 64))) := by
  have hread := readFixed_ready ext (sourceReady_stored (length_beBytes s.X.toNat 8) hd v)
  rwa [beVal_beBytes] at hread

/-- The signed reading of the low 64 bits is the value, when it fits them. -/
theorem sval_64_toNat_mod {W : Nat} (p : BitVec W) (hW : 64 ≤ W) (hlo : -(2 ^ 63) ≤ p.toInt) (hhi : p.toInt < 2 ^ 63) :
    sval 64 (p.toNat % 2 ^ 64) = p.toInt := by
  have hmod := toInt_emod_two_pow p hW
  rw [sval]
  split <;> omega

/-- A 64-bit integer is the signed reading of its pattern in `X`. -/
theorem toInt_ofInt_of_64 {W : Nat} {v : Int} (hW : 64 ≤ W) (hlo : -(2 ^ 63) ≤ v) (hhi : v < 2 ^ 63) :
    (BitVec.ofInt W v).toInt = v := by
  have hle : (2 : Int) ^ 63 ≤ 2 ^ (W - 1) := pow_le_pow_right₀ (by decide) (by omega)
  exact toInt_sext (by omega) (by omega) (by omega)

/-- Settles O23: the writer stores the low 64 bits, whose signed reading is the value. -/
theorem signedRoundTrip : Obligations.SignedRoundTrip := by
  intro s v d hlo hhi hd
  have hW : 64 ≤ s.params.xw := by have := xw_ge s; omega
  have hX : (BitVec.ofInt s.params.xw v).toInt = v := toInt_ofInt_of_64 hW hlo (by omega)
  have hlow : sval 64 ((BitVec.ofInt s.params.xw v).toNat % 2 ^ 64) = v := by
    rw [sval_64_toNat_mod _ hW (by rwa [hX]) (by omega), hX]
  let given : State := { s with X := BitVec.ofInt s.params.xw v, D := d }
  refine ⟨_, _, writeFixed_stored (by rwa [hX]) (by rwa [hX]) hd,
    readFixed_stored (fun W u => sext W (sval 64 u)) (s := given) hd _, ?_, rfl⟩
  exact (congrArg (fun x => (sext s.params.xw x).toInt) hlow).trans hX

/-- A pattern below `2^64` reads as a signed value that WR_U64BE admits. -/
theorem toInt_range_of_toNat_le {W : Nat} {p : BitVec W} (hW : 64 < W) (h : p.toNat ≤ 2 ^ 64 - 1) :
    0 ≤ p.toInt ∧ p.toInt ≤ 2 ^ 64 - 1 :=
  (unsignedOk_iff_range p hW).1 ((unsignedOk_iff_toNat_le p).2 h)

/-- Settles O24: the value is its own low 64 bits. -/
theorem unsignedRoundTrip : Obligations.UnsignedRoundTrip := by
  intro s v d hv hd
  have hW : 64 < s.params.xw := by have := xw_ge s; omega
  have hle := two_pow_64_le_two_pow_xw s
  have hX : (BitVec.ofNat s.params.xw v).toNat = v := toNat_zext (by omega)
  obtain ⟨hlo, hhi⟩ := toInt_range_of_toNat_le hW (hX.trans_le hv)
  let given : State := { s with X := BitVec.ofNat s.params.xw v, D := d }
  refine ⟨_, _, writeFixed_stored hlo hhi hd, readFixed_stored zext (s := given) hd _, ?_, rfl⟩
  have hlow : (BitVec.ofNat s.params.xw v).toNat % 2 ^ 64 = v := by omega
  exact (congrArg (fun x => (zext s.params.xw x).toNat) hlow).trans hX

/-! ## The extended format -/

theorem lt_pow_extendedLen (v : Nat) : v < 256 ^ extendedLen v :=
  (lt_pow_byteLen v).trans_le (Nat.pow_le_pow_right (by decide) (Nat.le_max_right 8 _))

/-- Settles O25: the range `[D, D + N)` is the write extent, and its digits are enough for the value. -/
theorem extendedRoundTrip : Obligations.ExtendedRoundTrip := by
  intro s hd
  have hmem := s.params.memSize_le
  have hlen : extendedLen s.X.toNat = max 8 (byteLen s.X.toNat) := rfl
  have hB : (s.D + BitVec.ofNat 32 (extendedLen s.X.toNat)).toNat = s.D.toNat + extendedLen s.X.toNat := by
    rw [BitVec.toNat_add, BitVec.toNat_ofNat]
    omega
  have hval : leVal (leBytes s.X.toNat (extendedLen s.X.toNat)) = s.X.toNat := by
    rw [leVal_leBytes, Nat.mod_eq_of_lt (lt_pow_extendedLen _)]
  have hrange : rangeReady { stored (leBytes s.X.toNat (extendedLen s.X.toNat)) (extendedLen s.X.toNat) s with
      A := s.D, B := s.D + BitVec.ofNat 32 (extendedLen s.X.toNat) }
      (leBytes s.X.toNat (extendedLen s.X.toNat)) := by
    have hread := memRead_memWrite s.mem s.D.toNat (leBytes s.X.toNat (extendedLen s.X.toNat))
    rw [length_leBytes] at hread
    refine ⟨?_, ?_, ?_⟩
    · rw [hB]; exact Nat.le_add_right ..
    · rw [hB]; exact hd
    · rw [hB, Nat.add_sub_cancel_left]; exact hread
  refine ⟨_, _, execWrxLe_stored hd, readRange_loaded hrange (by rw [hval]; exact s.X.isLt), ?_, rfl⟩
  exact (congrArg (fun x => (zext s.params.xw x).toNat) hval).trans (toNat_zext s.X.isLt)

/-! ## The writers side by side -/

theorem extendedLen_of_le {v : Nat} (h : v ≤ 2 ^ 64 - 1) : extendedLen v = 8 :=
  Nat.max_eq_left (byteLen_le (by omega))

/-- Settles O26: the same bytes at the same place; and big-endian digit `7 - i` is little-endian digit `i`. -/
theorem writersAgree : Obligations.WritersAgree := by
  refine fun s hd => ⟨fun hlo hhi => ?_, fun hX => ?_⟩
  · exact (writeFixed_stored (by omega) hhi hd).trans (writeFixed_stored hlo (by omega) hd).symm
  · obtain ⟨hlo, hhi⟩ := toInt_range_of_toNat_le (by have := xw_ge s; omega) hX
    have hwrx := execWrxLe_stored (s := s) (by rwa [extendedLen_of_le hX])
    rw [extendedLen_of_le hX] at hwrx
    refine ⟨_, _, writeFixed_stored hlo hhi hd, hwrx, fun i hi => ?_⟩
    rw [stored_mem, stored_mem, memByte_memWrite_inside (by rwa [length_leBytes]),
      memByte_memWrite_inside (by rw [length_beBytes]; omega), getElem?_leBytes 8 _ i hi,
      getElem?_beBytes _ (by omega), show 8 - 1 - (7 - i) = i by omega]

end Sys2Proof.Machine
end

-- Errors and stops.
section
/-! SUPPORT. The condition behind each code a command leaves in `CAUSE` (60_exceptions R220 to R227), and the one stop
(93 U1, log 3). Both follow each command through its checks in order. -/

namespace Sys2Proof.Machine

/-- The condition under which a command raises an error kind: its row in the table of R220. -/
def raiseCondition (i : Instr) (s : State) : Cause → Prop
  | .rangeError => (i = .wrS64be ∧ ¬ (-(2 ^ 63) ≤ s.X.toInt ∧ s.X.toInt ≤ 2 ^ 63 - 1)) ∨
      (i = .wrU64be ∧ ¬ (0 ≤ s.X.toInt ∧ s.X.toInt ≤ 2 ^ 64 - 1))
  | .lengthError => (i ∈ [Instr.rduBe, .rduLe, .md5, .sha1, .sha256] ∧ s.params.memSize < s.B.toNat) ∨
      (i ∈ [Instr.rdS64be, .rdU64be] ∧ s.params.memSize < s.A.toNat + 8) ∨
      (i = .uuid4 ∧ s.params.memSize < s.A.toNat + 16)
  | .encodingError => False
  | .illegalCommand => False
  | .boundsFault => i ∈ [Instr.wrxLe, .wrS64be, .wrU64be, .md5, .sha1, .sha256, .uuid4] ∧
      s.params.memSize < s.D.toNat + writeLen i s
  | .precisionFault => i ∈ [Instr.rduBe, .rduLe] ∧ ∃ bytes, rangeReady s bytes ∧
      2 ^ s.params.xw ≤ (if i = .rduBe then beVal bytes else leVal bytes)
  | .orderFault => i ∈ [Instr.rduBe, .rduLe, .md5, .sha1, .sha256] ∧ s.B.toNat < s.A.toNat

/-- The outcome is an error under its condition, a success, or the stop on an unwritten byte of a read extent that lies
in `M`. -/
def EndsAsStated (i : Instr) (s : State) (o : Host.Outcome State Fault Refusal) : Prop :=
  (∃ k, raiseCondition i s k ∧ o = .next (raised k s)) ∨
  (∃ t, t.cause = successCode ∧ o = .next t) ∨
  (s.A.toNat + readLen i s ≤ s.params.memSize ∧ memRead s.mem s.A.toNat (readLen i s) = none ∧
    o = .fault .unwrittenByte)

section Checks

variable {i : Instr} {s : State} {k : Host.Outcome State Fault Refusal}

theorem endsAsStated_raise {e : Cause} (h : raiseCondition i s e) : EndsAsStated i s (raise e s) := .inl ⟨e, h, rfl⟩

theorem endsAsStated_loadAndDone (p : BitVec s.params.xw) : EndsAsStated i s (loadAndDone s p) :=
  .inr (.inl ⟨loaded s p, rfl, rfl⟩)

theorem endsAsStated_storeAndDone (out : List Byte) (v : Nat) : EndsAsStated i s (storeAndDone out v s) :=
  .inr (.inl ⟨stored out v s, rfl, rfl⟩)

theorem endsAsStated_checkRange (hi : i ∈ [Instr.rduBe, .rduLe, .md5, .sha1, .sha256])
    (h : s.A.toNat ≤ s.B.toNat → s.B.toNat ≤ s.params.memSize → EndsAsStated i s k) :
    EndsAsStated i s (checkRange s k) := by
  unfold checkRange
  split
  · next hAB => exact endsAsStated_raise (e := .orderFault) ⟨hi, hAB⟩
  split
  · next hB => exact endsAsStated_raise (e := .lengthError) (.inl ⟨hi, hB⟩)
  · exact h (by omega) (by omega)

theorem endsAsStated_checkSource {n : Nat} (hfail : s.params.memSize < s.A.toNat + n → raiseCondition i s .lengthError)
    (h : s.A.toNat + n ≤ s.params.memSize → EndsAsStated i s k) : EndsAsStated i s (checkSource n s k) := by
  unfold checkSource
  split
  · next hA => exact endsAsStated_raise (hfail hA)
  · exact h (by omega)

theorem endsAsStated_checkDest (hi : i ∈ [Instr.wrxLe, .wrS64be, .wrU64be, .md5, .sha1, .sha256, .uuid4])
    (h : EndsAsStated i s k) : EndsAsStated i s (checkDest (writeLen i s) s k) := by
  unfold checkDest
  split
  · next hD => exact endsAsStated_raise (e := .boundsFault) ⟨hi, hD⟩
  · exact h

theorem endsAsStated_withSource {k : List Byte → Host.Outcome State Fault Refusal}
    (hfits : s.A.toNat + readLen i s ≤ s.params.memSize)
    (h : ∀ bytes, memRead s.mem s.A.toNat (readLen i s) = some bytes → EndsAsStated i s (k bytes)) :
    EndsAsStated i s (withSource (readLen i s) s k) := by
  cases hread : memRead s.mem s.A.toNat (readLen i s) with
  | none => exact .inr (.inr ⟨hfits, hread, withSource_none hread k⟩)
  | some bytes =>
    rw [withSource_some hread]
    exact h bytes hread

end Checks

/-! ## Each command -/

section Bodies

variable {i : Instr} {s : State}

theorem readRange_endsAsStated {val : List Byte → Nat} (hi : i ∈ [Instr.rduBe, .rduLe])
    (hval : ∀ bytes, val bytes = if i = .rduBe then beVal bytes else leVal bytes)
    (hlen : readLen i s = s.B.toNat - s.A.toNat) : EndsAsStated i s (readRange val s) := by
  have hrange : i ∈ [Instr.rduBe, .rduLe, .md5, .sha1, .sha256] := List.mem_append_left [Instr.md5, .sha1, .sha256] hi
  refine endsAsStated_checkRange hrange fun hAB hB => ?_
  rw [← hlen]
  refine endsAsStated_withSource (by omega) fun bytes hread => ?_
  split
  · next hv =>
    exact endsAsStated_raise (e := .precisionFault) ⟨hi, bytes, ⟨hAB, hB, hlen ▸ hread⟩, hval bytes ▸ hv⟩
  · exact endsAsStated_loadAndDone _

theorem readFixed_endsAsStated (ext : (W : Nat) → Nat → BitVec W) (hi : i ∈ [Instr.rdS64be, .rdU64be])
    (hlen : readLen i s = 8) : EndsAsStated i s (readFixed ext s) := by
  refine endsAsStated_checkSource (fun hA => .inr (.inl ⟨hi, hA⟩)) fun hA => ?_
  rw [← hlen] at hA ⊢
  exact endsAsStated_withSource hA fun bytes _ => endsAsStated_loadAndDone _

theorem execWrxLe_endsAsStated : EndsAsStated .wrxLe s (execWrxLe s) :=
  endsAsStated_checkDest (by decide) (endsAsStated_storeAndDone _ _)

theorem writeFixed_endsAsStated {lo hi : Int}
    (hwriter : i ∈ [Instr.wrxLe, .wrS64be, .wrU64be, .md5, .sha1, .sha256, .uuid4])
    (hrange : ¬ (lo ≤ s.X.toInt ∧ s.X.toInt ≤ hi) → raiseCondition i s .rangeError) (hlen : writeLen i s = 8) :
    EndsAsStated i s (writeFixed lo hi s) := by
  by_cases hX : lo ≤ s.X.toInt ∧ s.X.toInt ≤ hi
  · rw [writeFixed_valid hX.1 hX.2, ← hlen]
    exact endsAsStated_checkDest hwriter (endsAsStated_storeAndDone _ _)
  · rw [writeFixed_range (by omega)]
    exact endsAsStated_raise (hrange hX)

theorem digestCmd_endsAsStated (hash : List Byte → List Byte) {dl : Nat}
    (hrange : i ∈ [Instr.rduBe, .rduLe, .md5, .sha1, .sha256])
    (hwriter : i ∈ [Instr.wrxLe, .wrS64be, .wrU64be, .md5, .sha1, .sha256, .uuid4])
    (hlen : readLen i s = s.B.toNat - s.A.toNat) (hdl : writeLen i s = dl) :
    EndsAsStated i s (digestCmd hash dl s) := by
  refine endsAsStated_checkRange hrange fun hAB hB => ?_
  rw [← hlen, ← hdl]
  refine endsAsStated_checkDest hwriter (endsAsStated_withSource (by omega) fun msg _ => ?_)
  exact endsAsStated_storeAndDone _ _

theorem execUuid4_endsAsStated : EndsAsStated .uuid4 s (execUuid4 s) :=
  endsAsStated_checkSource (fun hA => .inr (.inr ⟨rfl, hA⟩)) fun hA =>
    endsAsStated_checkDest (by decide) (endsAsStated_withSource hA fun _ _ => endsAsStated_storeAndDone _ _)

end Bodies

theorem exec_endsAsStated (i : Instr) (s : State) : EndsAsStated i s (exec i s) := by
  cases i
  case rduBe => exact readRange_endsAsStated (by decide) (fun _ => rfl) rfl
  case rduLe => exact readRange_endsAsStated (by decide) (fun _ => rfl) rfl
  case rdS64be => exact readFixed_endsAsStated (fun W u => sext W (sval 64 u)) (by decide) rfl
  case rdU64be => exact readFixed_endsAsStated zext (by decide) rfl
  case wrxLe => exact execWrxLe_endsAsStated
  case wrS64be => exact writeFixed_endsAsStated (by decide) (fun h => .inl ⟨rfl, h⟩) rfl
  case wrU64be => exact writeFixed_endsAsStated (by decide) (fun h => .inr ⟨rfl, h⟩) rfl
  case md5 => exact digestCmd_endsAsStated _ (by decide) (by decide) rfl rfl
  case sha1 => exact digestCmd_endsAsStated _ (by decide) (by decide) rfl rfl
  case sha256 => exact digestCmd_endsAsStated _ (by decide) (by decide) rfl rfl
  case uuid4 => exact execUuid4_endsAsStated

/-! ## The codes (R220) -/

/-- The codes number the kinds from 1 in the order of R220. -/
theorem causeCode_injective : Function.Injective causeCode :=
  Function.LeftInverse.injective (g := fun c => Cause.ofNat (c.toNat - 1)) fun k => by cases k <;> rfl

/-- A command that leaves a code has met the condition of its kind. -/
theorem exec_raiseCondition {i : Instr} {s t : State} (ht : exec i s = .next t) (e : Cause)
    (hc : t.cause = causeCode e) : raiseCondition i s e := by
  rcases exec_endsAsStated i s with ⟨k, hk, he⟩ | ⟨u, hu, he⟩ | ⟨-, -, he⟩ <;> cases he.symm.trans ht
  case inl => exact causeCode_injective hc ▸ hk
  case inr.inl => exact absurd (hc.symm.trans hu) (causeCode_ne_success e)

theorem exec_cause_le {i : Instr} {s t : State} (ht : exec i s = .next t) : t.cause.toNat ≤ 7 := by
  by_cases hc : t.cause = successCode
  · rw [hc]
    decide
  · obtain ⟨k, rfl⟩ := exec_failed ht hc
    rw [raised_cause]
    cases k <;> decide

theorem reservedWord_of_decode_ok {c : Byte} {i : Instr} (h : decode c = .ok i) : reservedWord c = false := by
  rw [← Bool.not_eq_true, ← decode_eq_reserved_iff_reservedWord, h]
  exact nofun

/-- Settles O46: every code a command leaves has its condition, none has code 3 or 4, and a reserved word leaves 4. -/
theorem eachCodeHasItsCondition : Obligations.EachCodeHasItsCondition := by
  refine ⟨fun i s t ht => ?_, fun c s t ht => ?_⟩
  · have condition := exec_raiseCondition ht
    exact ⟨exec_cause_le ht, condition .encodingError, condition .illegalCommand, condition .rangeError,
      condition .lengthError, condition .boundsFault, condition .precisionFault, condition .orderFault⟩
  · rcases decode_cases c with ⟨i, hi⟩ | hc
    · rw [runCommand_ok hi] at ht
      rw [reservedWord_of_decode_ok hi]
      exact ⟨fun h => (exec_raiseCondition ht .illegalCommand h).elim, nofun⟩
    · cases (runCommand_error hc s).symm.trans ht
      exact ⟨fun _ => (decode_eq_reserved_iff_reservedWord c).1 hc, fun _ => rfl⟩

/-! ## The stop (93 U1) -/

/-- Settles O50: the only end that is no next state is the stop, and it names an unwritten byte. -/
theorem nothingIsStuck : Obligations.NothingIsStuck := by
  intro i s
  rcases exec_endsAsStated i s with ⟨k, -, he⟩ | ⟨t, -, he⟩ | ⟨hfits, hnone, he⟩ <;> rw [he]
  · exact ⟨fun _ => ⟨_, rfl⟩, nofun, nofun⟩
  · exact ⟨fun _ => ⟨_, rfl⟩, nofun, nofun⟩
  · obtain ⟨j, hj, hbyte⟩ := memRead_eq_none_iff.1 hnone
    refine ⟨fun hwritten => absurd hbyte (hwritten j hj (by omega)), nofun, fun f hf => ?_⟩
    cases hf
    exact ⟨rfl, j, hj, by omega, hbyte⟩

end Sys2Proof.Machine
end

-- Elsewhere and again.
section
/-! SUPPORT. A successful command run elsewhere (20_memory R58) or again (42_hash_common R136, 10_state section 9). -/

namespace Sys2Proof.Machine

/-! ## The checks, inverted at a success -/

section Success

variable {s t : State} {k : Host.Outcome State Fault Refusal}

theorem raise_not_success {e : Cause} (ht : raise e s = .next t) : t.cause ≠ successCode := by
  cases ht
  exact causeCode_ne_success e

theorem checkRange_success (ht : checkRange s k = .next t) (hc : t.cause = successCode) :
    s.A.toNat ≤ s.B.toNat ∧ s.B.toNat ≤ s.params.memSize ∧ k = .next t := by
  unfold checkRange at ht
  split at ht
  · exact absurd hc (raise_not_success ht)
  split at ht
  · exact absurd hc (raise_not_success ht)
  · exact ⟨by omega, by omega, ht⟩

theorem checkSource_success {n : Nat} (ht : checkSource n s k = .next t) (hc : t.cause = successCode) :
    s.A.toNat + n ≤ s.params.memSize ∧ k = .next t := by
  unfold checkSource at ht
  split at ht
  · exact absurd hc (raise_not_success ht)
  · exact ⟨by omega, ht⟩

theorem checkDest_success {n : Nat} (ht : checkDest n s k = .next t) (hc : t.cause = successCode) :
    destReady n s ∧ k = .next t := by
  unfold checkDest at ht
  split at ht
  · exact absurd hc (raise_not_success ht)
  · exact ⟨by unfold destReady; omega, ht⟩

theorem withSource_next {n : Nat} {k : List Byte → Host.Outcome State Fault Refusal} (ht : withSource n s k = .next t) :
    ∃ bytes, memRead s.mem s.A.toNat n = some bytes ∧ k bytes = .next t := by
  cases hread : memRead s.mem s.A.toNat n with
  | none => cases (withSource_none hread k).symm.trans ht
  | some bytes => exact ⟨bytes, rfl, (withSource_some hread k).symm.trans ht⟩

/-! ## The bodies, inverted at a success -/

theorem readRange_success {val : List Byte → Nat} (ht : readRange val s = .next t) (hc : t.cause = successCode) :
    ∃ bytes, rangeReady s bytes ∧ val bytes < 2 ^ s.params.xw ∧ t = loaded s (zext s.params.xw (val bytes)) := by
  obtain ⟨hAB, hB, ht⟩ := checkRange_success ht hc
  obtain ⟨bytes, hread, ht⟩ := withSource_next ht
  split at ht
  · exact absurd hc (raise_not_success ht)
  · next hv =>
    cases ht
    exact ⟨bytes, ⟨hAB, hB, hread⟩, Nat.lt_of_not_le hv, rfl⟩

theorem readFixed_success {ext : (W : Nat) → Nat → BitVec W} (ht : readFixed ext s = .next t)
    (hc : t.cause = successCode) :
    ∃ bytes, sourceReady 8 s bytes ∧ t = loaded s (ext s.params.xw (beVal bytes)) := by
  obtain ⟨hA, ht'⟩ := checkSource_success ht hc
  obtain ⟨bytes, hread, -⟩ := withSource_next ht'
  cases ht.symm.trans (readFixed_ready ext ⟨hA, hread⟩)
  exact ⟨bytes, ⟨hA, hread⟩, rfl⟩

theorem digestCmd_success {hash : List Byte → List Byte} {dl : Nat} (ht : digestCmd hash dl s = .next t)
    (hc : t.cause = successCode) : ∃ msg, rangeReady s msg ∧ destReady dl s ∧ t = stored (hash msg) dl s := by
  obtain ⟨hAB, hB, ht⟩ := checkRange_success ht hc
  obtain ⟨hD, ht⟩ := checkDest_success ht hc
  obtain ⟨msg, hread, ht⟩ := withSource_next ht
  cases ht
  exact ⟨msg, ⟨hAB, hB, hread⟩, hD, rfl⟩

theorem execUuid4_success (ht : execUuid4 s = .next t) (hc : t.cause = successCode) :
    ∃ r, sourceReady 16 s r ∧ destReady 36 s ∧ t = stored (uuidRender (uuidForce r)) 36 s := by
  obtain ⟨hA, ht⟩ := checkSource_success ht hc
  obtain ⟨hD, ht⟩ := checkDest_success ht hc
  obtain ⟨r, hread, ht⟩ := withSource_next ht
  cases ht
  exact ⟨r, ⟨hA, hread⟩, hD, rfl⟩

end Success

/-! ## Elsewhere (R58) -/

section Elsewhere

variable {s t u : State} {d : Word}

/-- Two runs that differ in `D` alone store one byte sequence. -/
theorem digestCmd_elsewhere {hash : List Byte → List Byte} {dl : Nat} (hlen : ∀ msg, (hash msg).length = dl)
    (ht : digestCmd hash dl s = .next t) (hct : t.cause = successCode)
    (hu : digestCmd hash dl { s with D := d } = .next u) (hcu : u.cause = successCode) :
    ∃ out, out.length = dl ∧ t = stored out dl s ∧ u = stored out dl { s with D := d } := by
  obtain ⟨msg, ⟨-, -, hread⟩, -, rfl⟩ := digestCmd_success ht hct
  obtain ⟨msg', ⟨-, -, hread'⟩, -, rfl⟩ := digestCmd_success hu hcu
  cases hread.symm.trans hread'
  exact ⟨hash msg, hlen msg, rfl, rfl⟩

theorem execUuid4_elsewhere (ht : execUuid4 s = .next t) (hct : t.cause = successCode)
    (hu : execUuid4 { s with D := d } = .next u) (hcu : u.cause = successCode) :
    ∃ out, out.length = 36 ∧ t = stored out 36 s ∧ u = stored out 36 { s with D := d } := by
  obtain ⟨r, ⟨-, hread⟩, -, rfl⟩ := execUuid4_success ht hct
  obtain ⟨r', ⟨-, hread'⟩, -, rfl⟩ := execUuid4_success hu hcu
  cases hread.symm.trans hread'
  exact ⟨_, length_uuidRender_uuidForce (memRead_length hread), rfl, rfl⟩

end Elsewhere

/-- Settles O28: both runs store one sequence, and each finds it at its own destination. -/
theorem overlapDoesNotMatter : Obligations.OverlapDoesNotMatter := by
  intro i n s t u d hi ht hct hu hcu j hj
  obtain ⟨out, hlen, rfl, rfl⟩ : ∃ out, out.length = n ∧ t = stored out n s ∧ u = stored out n { s with D := d } := by
    simp only [List.mem_cons, Prod.mk.injEq, List.not_mem_nil, or_false] at hi
    rcases hi with ⟨rfl, rfl⟩ | ⟨rfl, rfl⟩ | ⟨rfl, rfl⟩ | ⟨rfl, rfl⟩
    · exact digestCmd_elsewhere length_md5Hash ht hct hu hcu
    · exact digestCmd_elsewhere length_sha1Hash ht hct hu hcu
    · exact digestCmd_elsewhere length_sha256Hash ht hct hu hcu
    · exact execUuid4_elsewhere ht hct hu hcu
  rw [stored_mem, stored_mem, memByte_memWrite_inside (hlen ▸ hj), memByte_memWrite_inside (hlen ▸ hj)]

/-! ## Again (R136) -/

/-- In the canonical form writing the same bytes at the same place twice is writing them once. -/
theorem memWrite_memWrite_same {m : Memory} (hwf : Memory.wf m = true) (a : Nat) (out : List Byte) :
    memWrite (memWrite m a out) a out = memWrite m a out := by
  refine canonical_ext (wf_memWrite out (wf_memWrite out hwf a) a) (wf_memWrite out hwf a) fun b => ?_
  by_cases hb : a ≤ b ∧ b < a + out.length
  · rw [memByte_memWrite, if_pos hb, memByte_memWrite, if_pos hb]
  · exact memByte_memWrite_outside hb

theorem stored_stored {s : State} (hwf : Memory.wf s.mem = true) (out : List Byte) (v : Nat) :
    stored out v (stored out v s) = stored out v s := by
  have hmem := memWrite_memWrite_same hwf s.D.toNat out
  simp only [stored, hmem]

/-- A write extent clear of an extent leaves what `MemRead` gives of it. -/
theorem memRead_memWrite_clear {m : Memory} {a n d : Nat} {out : List Byte}
    (hclear : ∀ b, inExtent a n b → ¬ inExtent d out.length b) : memRead (memWrite m d out) a n = memRead m a n :=
  memRead_congr fun i hi => memByte_memWrite_outside (hclear (a + i) ⟨by omega, by omega⟩)

section Again

variable {s t : State}

theorem readRange_again {val : List Byte → Nat} (ht : readRange val s = .next t) (hc : t.cause = successCode) :
    readRange val t = .next t := by
  obtain ⟨bytes, hready, hv, rfl⟩ := readRange_success ht hc
  exact readRange_loaded (s := loaded s _) hready hv

theorem readFixed_again {ext : (W : Nat) → Nat → BitVec W} (ht : readFixed ext s = .next t)
    (hc : t.cause = successCode) : readFixed ext t = .next t := by
  obtain ⟨bytes, hready, rfl⟩ := readFixed_success ht hc
  exact readFixed_ready ext (s := loaded s _) hready

theorem digestCmd_again {hash : List Byte → List Byte} {dl : Nat} (hlen : ∀ msg, (hash msg).length = dl)
    (hwf : Memory.wf s.mem = true) (ht : digestCmd hash dl s = .next t) (hc : t.cause = successCode)
    (hclear : ∀ a, inExtent s.A.toNat (s.B.toNat - s.A.toNat) a → ¬ inExtent s.D.toNat dl a) :
    digestCmd hash dl t = .next t := by
  obtain ⟨msg, ⟨hAB, hB, hread⟩, hD, rfl⟩ := digestCmd_success ht hc
  have hread' := (memRead_memWrite_clear (m := s.mem) (hlen msg ▸ hclear)).trans hread
  rw [digestCmd_stored (s := stored (hash msg) dl s) hash dl ⟨hAB, hB, hread'⟩ hD, stored_stored hwf]

theorem execUuid4_again (hwf : Memory.wf s.mem = true) (ht : execUuid4 s = .next t) (hc : t.cause = successCode)
    (hclear : ∀ a, inExtent s.A.toNat 16 a → ¬ inExtent s.D.toNat 36 a) : execUuid4 t = .next t := by
  obtain ⟨r, ⟨hA, hread⟩, hD, rfl⟩ := execUuid4_success ht hc
  have hlen := length_uuidRender_uuidForce (memRead_length hread)
  have hread' := (memRead_memWrite_clear (m := s.mem) (hlen ▸ hclear)).trans hread
  rw [execUuid4_stored (s := stored (uuidRender (uuidForce r)) 36 s) ⟨hA, hread'⟩ hD, stored_stored hwf]

end Again

/-- Settles O52: the second run passes the same checks, reads the same bytes and stores what stands there. -/
theorem repeatedCommandIsIdempotent : Obligations.RepeatedCommandIsIdempotent := by
  intro i s t hi hwf ht hc hclear
  simp only [List.mem_cons, List.not_mem_nil, or_false] at hi
  rcases hi with rfl | rfl | rfl | rfl | rfl | rfl | rfl | rfl
  · exact readRange_again ht hc
  · exact readRange_again ht hc
  · exact readFixed_again (ext := fun W u => sext W (sval 64 u)) ht hc
  · exact readFixed_again (ext := zext) ht hc
  · exact digestCmd_again length_md5Hash hwf ht hc hclear
  · exact digestCmd_again length_sha1Hash hwf ht hc hclear
  · exact digestCmd_again length_sha256Hash hwf ht hc hclear
  · exact execUuid4_again hwf ht hc hclear

end Sys2Proof.Machine
end

-- No hidden state.
section
/-! SUPPORT. Two states that differ only in `N`, `CAUSE` and bytes outside the read extent go through a command side by
side (10_state section 9). -/

namespace Sys2Proof.Machine

/-- `s` with other contents of `M`, `N` and `CAUSE`. -/
def State.altered (s : State) (m : Memory) (n : Word) (c : Byte) : State := { s with mem := m, N := n, cause := c }

/-- The outcomes `o` of `s` and `o'` of `s'` are one end: the same error, load, store of `len` bytes, or stop. A command
with `len = 0` stores nothing, and one with `0 < len` loads nothing. -/
def SameEnd (len : Nat) (s : State) (m : Memory) (n : Word) (c : Byte) (o o' : Host.Outcome State Fault Refusal) :
    Prop :=
  (∃ k, o = .next (raised k s) ∧ o' = .next (raised k (s.altered m n c))) ∨
  (len = 0 ∧ ∃ p : BitVec s.params.xw, o = .next (loaded s p) ∧ o' = .next (loaded (s.altered m n c) p)) ∨
  (∃ out v, out.length = len ∧ o = .next (stored out v s) ∧ o' = .next (stored out v (s.altered m n c))) ∨
  (o = .fault .unwrittenByte ∧ o' = .fault .unwrittenByte)

section Checks

variable {len : Nat} {s : State} {m : Memory} {n : Word} {c : Byte} {k k' : Host.Outcome State Fault Refusal}

theorem sameEnd_raise (e : Cause) : SameEnd len s m n c (raise e s) (raise e (s.altered m n c)) := .inl ⟨e, rfl, rfl⟩

theorem sameEnd_loadAndDone (hlen : len = 0) (p : BitVec s.params.xw) :
    SameEnd len s m n c (loadAndDone s p) (loadAndDone (s.altered m n c) p) := .inr (.inl ⟨hlen, p, rfl, rfl⟩)

theorem sameEnd_storeAndDone {out : List Byte} (hlen : out.length = len) (v : Nat) :
    SameEnd len s m n c (storeAndDone out v s) (storeAndDone out v (s.altered m n c)) :=
  .inr (.inr (.inl ⟨out, v, hlen, rfl, rfl⟩))

/-- A test that both states answer alike keeps them side by side. -/
theorem sameEnd_ite {q : Prop} [Decidable q] {e e' : Host.Outcome State Fault Refusal} (he : SameEnd len s m n c e e')
    (h : SameEnd len s m n c k k') : SameEnd len s m n c (if q then e else k) (if q then e' else k') := by
  split
  · exact he
  · exact h

theorem sameEnd_checkRange (h : SameEnd len s m n c k k') :
    SameEnd len s m n c (checkRange s k) (checkRange (s.altered m n c) k') :=
  sameEnd_ite (sameEnd_raise .orderFault) (sameEnd_ite (sameEnd_raise .lengthError) h)

theorem sameEnd_checkSource (l : Nat) (h : SameEnd len s m n c k k') :
    SameEnd len s m n c (checkSource l s k) (checkSource l (s.altered m n c) k') :=
  sameEnd_ite (sameEnd_raise .lengthError) h

theorem sameEnd_checkDest (l : Nat) (h : SameEnd len s m n c k k') :
    SameEnd len s m n c (checkDest l s k) (checkDest l (s.altered m n c) k') :=
  sameEnd_ite (sameEnd_raise .boundsFault) h

theorem sameEnd_withSource {l : Nat} {k k' : List Byte → Host.Outcome State Fault Refusal}
    (hread : memRead m s.A.toNat l = memRead s.mem s.A.toNat l)
    (h : ∀ bytes, bytes.length = l → SameEnd len s m n c (k bytes) (k' bytes)) :
    SameEnd len s m n c (withSource l s k) (withSource l (s.altered m n c) k') := by
  cases hs : memRead s.mem s.A.toNat l with
  | none =>
    rw [withSource_none hs, withSource_none (s := s.altered m n c) (hread.trans hs)]
    exact .inr (.inr (.inr ⟨rfl, rfl⟩))
  | some bytes =>
    rw [withSource_some hs, withSource_some (s := s.altered m n c) (hread.trans hs)]
    exact h bytes (memRead_length hs)

end Checks

/-! ## Each command -/

section Bodies

variable {s : State} {m : Memory}

theorem readRange_sameEnd (val : List Byte → Nat)
    (hread : memRead m s.A.toNat (s.B.toNat - s.A.toNat) = memRead s.mem s.A.toNat (s.B.toNat - s.A.toNat))
    (n : Word) (c : Byte) : SameEnd 0 s m n c (readRange val s) (readRange val (s.altered m n c)) :=
  sameEnd_checkRange (sameEnd_withSource hread fun _ _ =>
    sameEnd_ite (sameEnd_raise .precisionFault) (sameEnd_loadAndDone rfl _))

theorem readFixed_sameEnd (ext : (W : Nat) → Nat → BitVec W)
    (hread : memRead m s.A.toNat 8 = memRead s.mem s.A.toNat 8) (n : Word) (c : Byte) :
    SameEnd 0 s m n c (readFixed ext s) (readFixed ext (s.altered m n c)) :=
  sameEnd_checkSource 8 (sameEnd_withSource hread fun _ _ => sameEnd_loadAndDone rfl _)

theorem execWrxLe_sameEnd (m : Memory) (n : Word) (c : Byte) :
    SameEnd (extendedLen s.X.toNat) s m n c (execWrxLe s) (execWrxLe (s.altered m n c)) :=
  sameEnd_checkDest _ (sameEnd_storeAndDone (length_leBytes _ _) _)

theorem writeFixed_sameEnd (lo hi : Int) (m : Memory) (n : Word) (c : Byte) :
    SameEnd 8 s m n c (writeFixed lo hi s) (writeFixed lo hi (s.altered m n c)) :=
  sameEnd_ite (sameEnd_raise .rangeError) (sameEnd_checkDest 8 (sameEnd_storeAndDone (length_write64 _) _))

theorem digestCmd_sameEnd {hash : List Byte → List Byte} {dl : Nat} (hlen : ∀ msg, (hash msg).length = dl)
    (hread : memRead m s.A.toNat (s.B.toNat - s.A.toNat) = memRead s.mem s.A.toNat (s.B.toNat - s.A.toNat))
    (n : Word) (c : Byte) : SameEnd dl s m n c (digestCmd hash dl s) (digestCmd hash dl (s.altered m n c)) :=
  sameEnd_checkRange (sameEnd_checkDest dl (sameEnd_withSource hread fun msg _ => sameEnd_storeAndDone (hlen msg) dl))

theorem execUuid4_sameEnd (hread : memRead m s.A.toNat 16 = memRead s.mem s.A.toNat 16) (n : Word) (c : Byte) :
    SameEnd 36 s m n c (execUuid4 s) (execUuid4 (s.altered m n c)) :=
  sameEnd_checkSource 16 (sameEnd_checkDest 36 (sameEnd_withSource hread fun _ hr =>
    sameEnd_storeAndDone (length_uuidRender_uuidForce hr) 36))

end Bodies

theorem exec_sameEnd (i : Instr) {s : State} {m : Memory}
    (hread : memRead m s.A.toNat (readLen i s) = memRead s.mem s.A.toNat (readLen i s)) (n : Word) (c : Byte) :
    SameEnd (writeLen i s) s m n c (exec i s) (exec i (s.altered m n c)) := by
  cases i
  case rduBe => exact readRange_sameEnd beVal hread n c
  case rduLe => exact readRange_sameEnd leVal hread n c
  case rdS64be => exact readFixed_sameEnd (fun W u => sext W (sval 64 u)) hread n c
  case rdU64be => exact readFixed_sameEnd zext hread n c
  case wrxLe => exact execWrxLe_sameEnd m n c
  case wrS64be => exact writeFixed_sameEnd _ _ m n c
  case wrU64be => exact writeFixed_sameEnd _ _ m n c
  case md5 => exact digestCmd_sameEnd length_md5Hash hread n c
  case sha1 => exact digestCmd_sameEnd length_sha1Hash hread n c
  case sha256 => exact digestCmd_sameEnd length_sha256Hash hread n c
  case uuid4 => exact execUuid4_sameEnd hread n c

/-- Bytes written are read alike whatever memory they were written to. -/
theorem memByte_memWrite_congr (m m' : Memory) {d a : Nat} {out : List Byte} (h : inExtent d out.length a) :
    memByte (memWrite m d out) a = memByte (memWrite m' d out) a := by
  rw [memByte_memWrite, memByte_memWrite, if_pos h, if_pos h]

/-- Settles O51: the read extent decides one end, which both runs reach. -/
theorem noHiddenState : Obligations.NoHiddenState := by
  intro i s m n c hextent
  have hread : memRead m s.A.toNat (readLen i s) = memRead s.mem s.A.toNat (readLen i s) :=
    memRead_congr fun j hj => hextent _ ⟨by omega, by omega⟩
  have hsame : SameEnd (writeLen i s) s m n c (exec i s) (exec i { s with mem := m, N := n, cause := c }) :=
    exec_sameEnd i hread n c
  rcases hsame with ⟨k, he, he'⟩ | ⟨hlen, p, he, he'⟩ | ⟨out, v, hlen, he, he'⟩ | ⟨he, he'⟩ <;> rw [he, he']
  · refine ⟨nofun, fun t ht => ?_⟩
    cases ht
    exact ⟨_, rfl, rfl, rfl, fun hc => absurd hc (causeCode_ne_success k), fun hc => absurd hc (causeCode_ne_success k)⟩
  · refine ⟨nofun, fun t ht => ?_⟩
    cases ht
    exact ⟨_, rfl, rfl, rfl, fun _ hpos => by omega, fun _ a ha => by unfold inExtent at ha; omega⟩
  · refine ⟨nofun, fun t ht => ?_⟩
    cases ht
    exact ⟨_, rfl, rfl, rfl, fun _ _ => rfl, fun _ a ha => memByte_memWrite_congr _ _ (hlen ▸ ha)⟩
  · exact ⟨fun f hf => hf, nofun⟩

end Sys2Proof.Machine
end

-- Padding and blocks.
section
/-! SUPPORT. The parts of a padded message and the blocks it is cut into (42_hash_common R132, R133). -/

namespace Sys2Proof.Machine

/-! ## Padding (R132) -/

theorem padZeros_le (len : Nat) : padZeros len ≤ 63 := by
  unfold padZeros
  omega

theorem padZeros_fills_block (len : Nat) : (len + 1 + padZeros len + 8) % 64 = 0 := by
  unfold padZeros
  omega

/-- No smaller number of zeros fills the last block. -/
theorem padZeros_least {len j : Nat} (h : j < padZeros len) : (len + 1 + j + 8) % 64 ≠ 0 := by
  unfold padZeros at h
  omega

/-- Settles O29: the zeros are `padZeros`, and the length field holds the bit length exactly. -/
theorem paddingShape : Obligations.PaddingShape := by
  intro msg hbits
  have hfits : 8 * msg.length < 256 ^ 8 := hbits
  refine ⟨padZeros msg.length, padZeros_le _, padZeros_fills_block _, fun j => padZeros_least,
    ⟨beBytes (8 * msg.length) 8, length_beBytes .., ?_, rfl⟩, ⟨leBytes (8 * msg.length) 8, length_leBytes .., ?_, rfl⟩⟩
  · rw [beVal_beBytes, Nat.mod_eq_of_lt hfits]
  · rw [leVal_leBytes, Nat.mod_eq_of_lt hfits]

/-! ## Blocks (R133) -/

theorem flatten_chunks (size n : Nat) : ∀ s, (chunks size n s).flatten = s.take (size * n) := by
  induction n with
  | zero => exact fun _ => rfl
  | succ n ih => intro s; rw [chunks, List.flatten_cons, ih, Nat.mul_succ, Nat.add_comm, List.take_add]

theorem length_of_mem_chunks {size n : Nat} : ∀ {s b : List Byte}, size * n ≤ s.length → b ∈ chunks size n s →
    b.length = size := by
  induction n with
  | zero => intro s b _ hb; cases hb
  | succ n ih =>
    intro s b hs hb
    rw [Nat.mul_succ] at hs
    rcases List.mem_cons.1 hb with rfl | hb
    · rw [List.length_take]
      omega
    · exact ih (by rw [List.length_drop]; omega) hb

/-- Settles O30: the padded length is a multiple of 64, so the blocks are all full and use it up. -/
theorem blockCount : Obligations.BlockCount := by
  intro lenBytes msg hbytes
  have hlen : ∀ v n, (lenBytes v n).length = n := by
    rcases hbytes with rfl | rfl
    · exact length_beBytes
    · exact fun v n => length_leBytes n v
  have hpad := length_pad hlen msg
  have hblocks : (pad lenBytes msg).length / 64 = (msg.length + 8) / 64 + 1 := by omega
  refine ⟨hpad, (length_blocksOf _).trans hblocks, fun b => length_of_mem_chunks (by omega), ?_⟩
  rw [blocksOf, flatten_chunks, List.take_of_length_le (by omega)]

end Sys2Proof.Machine
end

-- Steps of the engines.
section
/-! SUPPORT. The schedule and the step functions with their rotations and functions written out (43_sha1 R153, R154,
44_sha256 R173 to R175, 45_md5 R193 to R195). -/

namespace Sys2Proof.Machine

/-! ## SHA-256 (R173, R174, R175) -/

theorem smallSigma0_eq (x : Word) : smallSigma0 x = x.rotateRight 7 ^^^ x.rotateRight 18 ^^^ (x >>> 3) := by
  rw [smallSigma0, rotr32_eq_rotateRight x (by decide), rotr32_eq_rotateRight x (by decide), shr32]

theorem smallSigma1_eq (x : Word) : smallSigma1 x = x.rotateRight 17 ^^^ x.rotateRight 19 ^^^ (x >>> 10) := by
  rw [smallSigma1, rotr32_eq_rotateRight x (by decide), rotr32_eq_rotateRight x (by decide), shr32]

theorem bigSigma0_eq (x : Word) : bigSigma0 x = x.rotateRight 2 ^^^ x.rotateRight 13 ^^^ x.rotateRight 22 := by
  rw [bigSigma0, rotr32_eq_rotateRight x (by decide), rotr32_eq_rotateRight x (by decide),
    rotr32_eq_rotateRight x (by decide)]

theorem bigSigma1_eq (x : Word) : bigSigma1 x = x.rotateRight 6 ^^^ x.rotateRight 11 ^^^ x.rotateRight 25 := by
  rw [bigSigma1, rotr32_eq_rotateRight x (by decide), rotr32_eq_rotateRight x (by decide),
    rotr32_eq_rotateRight x (by decide)]

@[simp] theorem length_sha256Schedule (block : List Byte) : (sha256Schedule block).length = 64 := by
  rw [sha256Schedule, length_extendSchedule, length_blockWords]

theorem getD_sha256Schedule_of_lt (block : List Byte) {j : Nat} (h : j < 16) :
    (sha256Schedule block).getD j 0 = (blockWords beVal block).getD j 0 :=
  getD_extendSchedule_of_lt sha256Next (by rwa [length_blockWords])

theorem getD_sha256Schedule_of_ge (block : List Byte) {j : Nat} (hge : 16 ≤ j) (hlt : j < 64) :
    (sha256Schedule block).getD j 0 = sha256Next ((sha256Schedule block).take j) :=
  getD_extendSchedule_of_ge sha256Next (by rwa [length_blockWords]) (by rwa [length_blockWords])

/-- Settles O33: the block's words are kept, and each later word is `sha256Next` of the words before it. -/
theorem sha256ScheduleRecurrence : Obligations.Sha256ScheduleRecurrence := by
  refine fun block _ => ⟨length_sha256Schedule block, fun j hj => ?_, ?_⟩
  · rw [getD_sha256Schedule_of_lt block hj, toNat_getD_blockWords_beVal block hj]
  · intro j hge hlt w2 w7 w15 w16 h2 h7 h15 h16
    have hlen : j ≤ (sha256Schedule block).length := by rw [length_sha256Schedule]; omega
    have back (k : Nat) (hpos : 0 < k) (hk : k ≤ 16) :
        wordBack ((sha256Schedule block).take j) k = (sha256Schedule block).getD (j - k) 0 :=
      wordBack_take hlen hpos (hk.trans hge)
    rw [h2, h7, h15, h16, getD_sha256Schedule_of_ge block hge hlt, sha256Next, smallSigma0_eq, smallSigma1_eq,
      back 2 (by decide) (by decide), back 7 (by decide) (by decide), back 15 (by decide) (by decide),
      back 16 (by decide) (by decide)]

/-- Settles O35: the step is its two sums, with the sigmas as rotations. -/
theorem sha256StepArithmetic : Obligations.Sha256StepArithmetic := by
  rintro t w v _ _ rfl rfl
  rw [← bigSigma0_eq, ← bigSigma1_eq]
  rfl

/-! ## SHA-1 (R153, R154) -/

/-- The function and the constant of step `t`, by the range of `t`. -/
theorem sha1F_sha1K_cases (t : Nat) (b c d : Word) :
    (t < 20 ∧ sha1F t b c d = (b &&& c) ||| (~~~b &&& d) ∧ sha1K t = 0x5A827999) ∨
    (20 ≤ t ∧ t < 40 ∧ sha1F t b c d = b ^^^ c ^^^ d ∧ sha1K t = 0x6ED9EBA1) ∨
    (40 ≤ t ∧ t < 60 ∧ sha1F t b c d = (b &&& c) ||| (b &&& d) ||| (c &&& d) ∧ sha1K t = 0x8F1BBCDC) ∨
    (60 ≤ t ∧ sha1F t b c d = b ^^^ c ^^^ d ∧ sha1K t = 0xCA62C1D6) := by
  unfold sha1F sha1K
  by_cases h20 : t < 20
  · exact .inl ⟨h20, if_pos h20, if_pos h20⟩
  by_cases h40 : t < 40
  · refine .inr (.inl ⟨by omega, h40, ?_⟩)
    rw [if_neg h20, if_neg h20, if_pos h40, if_pos h40]
    exact ⟨rfl, rfl⟩
  by_cases h60 : t < 60
  · refine .inr (.inr (.inl ⟨by omega, h60, ?_⟩))
    rw [if_neg h20, if_neg h20, if_neg h40, if_neg h40, if_pos h60, if_pos h60]
    exact ⟨rfl, rfl⟩
  · refine .inr (.inr (.inr ⟨by omega, ?_⟩))
    rw [if_neg h20, if_neg h20, if_neg h40, if_neg h40, if_neg h60, if_neg h60]
    exact ⟨rfl, rfl⟩

theorem toNat_sha1Step_a (t : Nat) (w : Word) (v : Sha1State) :
    (sha1Step t w v).a.toNat = ((v.a.rotateLeft 5).toNat + (sha1F t v.b v.c v.d).toNat + v.e.toNat +
      (sha1K t).toNat + w.toNat) % 2 ^ 32 := by
  simp only [sha1Step, rotl32_eq_rotateLeft _ (by decide : 5 < 32), BitVec.toNat_add, Nat.mod_add_mod]

/-- Settles O34: the sum is taken in integers, its function and constant by the range of `t`. -/
theorem sha1StepArithmetic : Obligations.Sha1StepArithmetic := by
  intro t w v _
  refine ⟨(sha1F t v.b v.c v.d).toNat, (sha1K t).toNat, ?_, toNat_sha1Step_a t w v, rfl,
    rotl32_eq_rotateLeft v.b (by decide), rfl, rfl⟩
  rcases sha1F_sha1K_cases t v.b v.c v.d with ⟨ht, hf, hk⟩ | ⟨hge, hlt, hf, hk⟩ | ⟨hge, hlt, hf, hk⟩ | ⟨ht, hf, hk⟩ <;>
    rw [hf, hk]
  · exact .inl ⟨ht, rfl, rfl⟩
  · exact .inr (.inl ⟨hge, hlt, rfl, rfl⟩)
  · exact .inr (.inr (.inl ⟨hge, hlt, rfl, rfl⟩))
  · exact .inr (.inr (.inr ⟨ht, rfl, rfl⟩))

/-! ## MD5 (R191, R193, R194, R195) -/

theorem md5Shift_lt {t : Nat} (ht : t < 64) : md5Shift t < 32 := by
  revert t
  decide

theorem md5F_cases (t : Nat) (b c d : Word) :
    (t < 16 ∧ md5F t b c d = (b &&& c) ||| (~~~b &&& d)) ∨
    (16 ≤ t ∧ t < 32 ∧ md5F t b c d = (b &&& d) ||| (c &&& ~~~d)) ∨
    (32 ≤ t ∧ t < 48 ∧ md5F t b c d = b ^^^ c ^^^ d) ∨ (48 ≤ t ∧ md5F t b c d = c ^^^ (b ||| ~~~d)) := by
  unfold md5F
  split
  · next h => exact .inl ⟨h, rfl⟩
  split
  · exact .inr (.inl ⟨by omega, by omega, rfl⟩)
  split
  · exact .inr (.inr (.inl ⟨by omega, by omega, rfl⟩))
  · exact .inr (.inr (.inr ⟨by omega, rfl⟩))

theorem md5Step_eq {t : Nat} (ht : t < 64) (w : Word) (v : Md5State) : md5Step t w v =
    ⟨v.d, v.b + (v.a + md5F t v.b v.c v.d + w + md5Table.getD t 0).rotateLeft (md5Shift t), v.b, v.c⟩ := by
  rw [md5Step, rotl32_eq_rotateLeft _ (md5Shift_lt ht), md5Tmp, md5T]

/-- A little-endian word of a block is the value of its four bytes, none of it lost in 32 bits. -/
theorem toNat_getD_blockWords_leVal (block : List Byte) {j : Nat} (h : j < 16) :
    ((blockWords leVal block).getD j 0).toNat = leVal ((block.drop (4 * j)).take 4) := by
  have hlt : leVal ((block.drop (4 * j)).take 4) < 2 ^ 32 :=
    (leVal_lt _).trans_le (Nat.pow_le_pow_right (n := 256) (by decide) (List.length_take_le 4 _))
  rw [getD_blockWords leVal block j h, BitVec.toNat_ofNat, Nat.mod_eq_of_lt hlt]

/-- Settles O36: the function by the round of `t`, the two tables by computing their 64 entries. -/
theorem md5StepAndPermutation : Obligations.Md5StepAndPermutation := by
  refine ⟨fun t w v ht => ⟨md5F t v.b v.c v.d, md5F_cases t v.b v.c v.d, md5Step_eq ht w v⟩, by decide, by decide,
    fun block _ => ⟨length_blockWords leVal block, fun j => toNat_getD_blockWords_leVal block⟩⟩

/-! ## The source's digests (95_test_vectors S1, S2, S3) -/

/-- Settles O37: each message is one block, and the engine is run on it. -/
theorem sourceDigestVectors : Obligations.SourceDigestVectors := by
  refine ⟨?_, ?_, ?_⟩ <;> decide +kernel

end Sys2Proof.Machine
end

-- UUID strings.
section
/-! SUPPORT. The characters of a rendered sequence by their offset, and what of the input they determine (46_uuid R211
to R213). -/

namespace Sys2Proof.Machine

/-! ## Digits (R212) -/

/-- The high (`b = 0`) or the low (`b = 1`) half of a byte. -/
def nibble (y : Byte) (b : Nat) : Nat := if b = 0 then y.toNat / 16 else y.toNat % 16

theorem nibble_lt (y : Byte) (b : Nat) : nibble y b < 16 := by
  have := y.isLt
  unfold nibble
  split <;> omega

theorem toNat_eq_nibbles (y : Byte) : y.toNat = 16 * nibble y 0 + nibble y 1 := (Nat.div_add_mod y.toNat 16).symm

theorem toNat_hexDigit {n : Nat} (h : n < 16) : (hexDigit n).toNat = if n < 10 then 0x30 + n else 0x61 + (n - 10) := by
  unfold hexDigit
  split <;> exact Nat.mod_eq_of_lt (by omega)

theorem hexDigit_injective {m n : Nat} (hm : m < 16) (hn : n < 16) (h : hexDigit m = hexDigit n) : m = n := by
  have hval := congrArg BitVec.toNat h
  rw [toNat_hexDigit hm, toNat_hexDigit hn] at hval
  split at hval <;> split at hval <;> omega

theorem getElem?_hexByte (y : Byte) {b : Nat} (h : b < 2) : (hexByte y)[b]? = some (hexDigit (nibble y b)) := by
  interval_cases b <;> rfl

theorem getElem?_flatMap_hexByte {y : Byte} {b : Nat} (hb : b < 2) : ∀ {l : List Byte} {k : Nat}, l[k]? = some y →
    (l.flatMap hexByte)[2 * k + b]? = some (hexDigit (nibble y b)) := by
  intro l
  induction l with
  | nil => intro k hk; cases hk
  | cons x l ih =>
    intro k hk
    rw [List.flatMap_cons]
    cases k with
    | zero =>
      cases hk
      rw [Nat.mul_zero, Nat.zero_add, List.getElem?_append_left (by rwa [length_hexByte]), getElem?_hexByte y hb]
    | succ k =>
      rw [List.getElem?_append_right (by rw [length_hexByte]; omega), length_hexByte, ← ih hk]
      congr 1
      omega

/-- The digits of byte `i` in the characters of the bytes `u[lo..hi)`. -/
theorem getElem?_hexGroup {u : List Byte} {lo hi i b : Nat} (hlo : lo ≤ i) (hhi : i < hi) (hu : i < u.length)
    (hb : b < 2) : (hexGroup u lo hi)[2 * (i - lo) + b]? = some (hexDigit (nibble (u.getD i 0) b)) := by
  refine getElem?_flatMap_hexByte hb ?_
  rw [List.getElem?_take_of_lt (by omega), List.getElem?_drop, Nat.add_sub_cancel' hlo, List.getD_eq_getElem?_getD,
    List.getElem?_eq_getElem hu, Option.getD_some]

/-! ## Places (R212) -/

/-- The string's nine pieces: the five groups of the 8-4-4-4-12 form and the hyphens between them. -/
def uuidPieces (u : List Byte) : List (List Byte) :=
  [hexGroup u 0 4, [hyphen], hexGroup u 4 6, [hyphen], hexGroup u 6 8, [hyphen], hexGroup u 8 10, [hyphen],
    hexGroup u 10 16]

theorem uuidRender_eq_flatten (u : List Byte) : uuidRender u = (uuidPieces u).flatten := by
  simp [uuidRender, uuidPieces]

/-- The offset of piece `j`: the sum of the lengths before it. -/
def pieceStart (j : Nat) : Nat := ([8, 1, 4, 1, 4, 1, 4, 1, 12].take j).sum

theorem length_uuidPieces {u : List Byte} (hu : u.length = 16) :
    (uuidPieces u).map List.length = [8, 1, 4, 1, 4, 1, 4, 1, 12] := by
  have hgroup (lo hi : Nat) (h : hi ≤ 16) : (hexGroup u lo hi).length = 2 * (hi - lo) :=
    length_hexGroup u lo hi (hu ▸ h)
  simp [uuidPieces, hgroup]

theorem getElem?_flatten_piece : ∀ {pieces : List (List Byte)} {j q : Nat} {piece : List Byte},
    pieces[j]? = some piece → q < piece.length →
      pieces.flatten[((pieces.map List.length).take j).sum + q]? = piece[q]? := by
  intro pieces
  induction pieces with
  | nil => intro j q piece hj; cases hj
  | cons first rest ih =>
    intro j q piece hj hq
    rw [List.flatten_cons, List.map_cons]
    cases j with
    | zero =>
      cases hj
      rw [List.take_zero, List.sum_nil, Nat.zero_add, List.getElem?_append_left hq]
    | succ j =>
      rw [List.take_succ_cons, List.sum_cons, Nat.add_assoc, List.getElem?_append_right (Nat.le_add_right ..),
        Nat.add_sub_cancel_left, ih hj hq]

theorem getElem?_uuidRender_piece {u piece : List Byte} (hu : u.length = 16) {j q : Nat}
    (hj : (uuidPieces u)[j]? = some piece) (hq : q < piece.length) :
    (uuidRender u)[pieceStart j + q]? = piece[q]? := by
  rw [uuidRender_eq_flatten, pieceStart, ← length_uuidPieces hu, getElem?_flatten_piece hj hq]

/-- The offset of the high digit of byte `i`: two characters a byte, and the hyphens before it. -/
def digitPlace (i : Nat) : Nat :=
  2 * i + (if i < 4 then 0 else if i < 6 then 1 else if i < 8 then 2 else if i < 10 then 3 else 4)

/-- The groups: number of the piece, first byte, byte after the last. -/
def uuidGroups : List (Nat × Nat × Nat) := [(0, 0, 4), (2, 4, 6), (4, 6, 8), (6, 8, 10), (8, 10, 16)]

theorem uuidPieces_group (u : List Byte) {j lo hi : Nat} (h : (j, lo, hi) ∈ uuidGroups) :
    (uuidPieces u)[j]? = some (hexGroup u lo hi) := by
  simp only [uuidGroups, List.mem_cons, Prod.mk.injEq, List.not_mem_nil, or_false] at h
  rcases h with ⟨rfl, rfl, rfl⟩ | ⟨rfl, rfl, rfl⟩ | ⟨rfl, rfl, rfl⟩ | ⟨rfl, rfl, rfl⟩ | ⟨rfl, rfl, rfl⟩ <;> rfl

theorem digitPlace_in_group : ∀ i < 16, ∃ g ∈ uuidGroups,
    g.2.1 ≤ i ∧ i < g.2.2 ∧ g.2.2 ≤ 16 ∧ digitPlace i = pieceStart g.1 + 2 * (i - g.2.1) := by decide

/-- Every offset is a hyphen's or a digit's. -/
theorem place_cases : ∀ p < 36, p ∈ [8, 13, 18, 23] ∨ ∃ i < 16, ∃ b < 2, p = digitPlace i + b := by decide

section Render

variable {u : List Byte} (hu : u.length = 16)
include hu

theorem getElem?_uuidRender_digit {i b : Nat} (hi : i < 16) (hb : b < 2) :
    (uuidRender u)[digitPlace i + b]? = some (hexDigit (nibble (u.getD i 0) b)) := by
  obtain ⟨⟨j, lo, hi'⟩, hmem, hlo, hhi, hle, hplace⟩ := digitPlace_in_group i hi
  dsimp only at hlo hhi hle hplace
  have hlen : (hexGroup u lo hi').length = 2 * (hi' - lo) := length_hexGroup u lo hi' (hu ▸ hle)
  rw [hplace, Nat.add_assoc, getElem?_uuidRender_piece hu (uuidPieces_group u hmem) (by omega),
    getElem?_hexGroup hlo hhi (by omega) hb]

theorem getElem?_uuidRender_hyphen {p : Nat} (hp : p ∈ [8, 13, 18, 23]) : (uuidRender u)[p]? = some hyphen := by
  simp only [List.mem_cons, List.not_mem_nil, or_false] at hp
  rcases hp with rfl | rfl | rfl | rfl
  · exact getElem?_uuidRender_piece (j := 1) (q := 0) hu rfl (by decide)
  · exact getElem?_uuidRender_piece (j := 3) (q := 0) hu rfl (by decide)
  · exact getElem?_uuidRender_piece (j := 5) (q := 0) hu rfl (by decide)
  · exact getElem?_uuidRender_piece (j := 7) (q := 0) hu rfl (by decide)

theorem toNat_getD_uuidRender_digit {i b : Nat} (hi : i < 16) (hb : b < 2) :
    ((uuidRender u).getD (digitPlace i + b) 0).toNat =
      if nibble (u.getD i 0) b < 10 then 0x30 + nibble (u.getD i 0) b else 0x61 + (nibble (u.getD i 0) b - 10) := by
  rw [List.getD_eq_getElem?_getD, getElem?_uuidRender_digit hu hi hb, Option.getD_some, toNat_hexDigit (nibble_lt ..)]

end Render

/-- Settles O40: the pieces by their offsets, the characters of a group by their byte. -/
theorem renderPlacesDigits : Obligations.RenderPlacesDigits := by
  intro u hu
  refine ⟨length_uuidRender hu, fun p hp => ?_, fun i hi p hp q h hqh => ?_⟩
  · rw [List.getD_eq_getElem?_getD, getElem?_uuidRender_hyphen hu hp]
    rfl
  · obtain rfl : p = digitPlace i := hp
    rcases hqh with ⟨rfl, rfl⟩ | ⟨rfl, rfl⟩
    · exact toNat_getD_uuidRender_digit hu hi (b := 0) (by decide)
    · exact toNat_getD_uuidRender_digit hu hi (b := 1) (by decide)

/-! ## The pattern (46_uuid section 3) -/

theorem toNat_hexDigit_range {n : Nat} (h : n < 16) :
    (0x30 ≤ (hexDigit n).toNat ∧ (hexDigit n).toNat ≤ 0x39) ∨
      (0x61 ≤ (hexDigit n).toNat ∧ (hexDigit n).toNat ≤ 0x66) := by
  rw [toNat_hexDigit h]
  split <;> omega

theorem nibble_forceVersion (y : Byte) : nibble (forceVersion y) 0 = 4 := by
  have hval := toNat_forceVersion y
  unfold nibble
  split <;> omega

theorem nibble_forceVariant (y : Byte) : 8 ≤ nibble (forceVariant y) 0 ∧ nibble (forceVariant y) 0 ≤ 11 := by
  have hval := toNat_forceVariant y
  unfold nibble
  split <;> omega

/-- Settles O41: a hyphen, the version digit, the variant digit, or any digit. -/
theorem uuidMatchesPattern : Obligations.UuidMatchesPattern := by
  intro r hr p hp
  have hu : (uuidForce r).length = 16 := (length_uuidForce r).trans hr
  have hdigit (i b : Nat) (hi : i < 16) (hb : b < 2) :
      ((uuidRender (uuidForce r))[digitPlace i + b]?).map BitVec.toNat =
        some (hexDigit (nibble ((uuidForce r).getD i 0) b)).toNat := by
    rw [getElem?_uuidRender_digit hu hi hb, Option.map_some]
  by_cases hhyphen : p ∈ [8, 13, 18, 23]
  · refine ⟨0x2D, by rw [getElem?_uuidRender_hyphen hu hhyphen]; rfl, ?_⟩
    rw [if_pos (by simpa using hhyphen)]
  by_cases h14 : p = 14
  · subst h14
    refine ⟨_, hdigit 6 0 (by decide) (by decide), ?_⟩
    rw [getD_uuidForce_six (by omega), nibble_forceVersion]
    decide
  by_cases h19 : p = 19
  · subst h19
    refine ⟨_, hdigit 8 0 (by decide) (by decide), ?_⟩
    have hvariant := nibble_forceVariant (r.getD 8 0)
    rw [getD_uuidForce_eight (by omega), toNat_hexDigit (nibble_lt ..)]
    simp only [Nat.reduceEqDiff, or_self, if_false, if_true]
    split <;> omega
  · obtain ⟨i, hi, b, hb, rfl⟩ := (place_cases p hp).resolve_left hhyphen
    refine ⟨_, hdigit i b hi hb, ?_⟩
    rw [if_neg (by simpa using hhyphen), if_neg h14, if_neg h19]
    exact toNat_hexDigit_range (nibble_lt ..)

/-! ## What the string determines (46_uuid section 4) -/

theorem eq_iff_forall_getD {u u' : List Byte} (hu : u.length = 16) (hu' : u'.length = 16) :
    u = u' ↔ ∀ i, i < 16 → u.getD i 0 = u'.getD i 0 := by
  refine ⟨fun h _ _ => by rw [h], fun h => List.ext_getElem (hu.trans hu'.symm) fun i hi hi' => ?_⟩
  have hget := h i (by omega)
  rwa [List.getD_eq_getElem _ _ hi, List.getD_eq_getElem _ _ hi'] at hget

/-- Each byte stands in the string with both its halves. -/
theorem uuidRender_injective {u u' : List Byte} (hu : u.length = 16) (hu' : u'.length = 16)
    (h : uuidRender u = uuidRender u') : u = u' := by
  refine (eq_iff_forall_getD hu hu').2 fun i hi => BitVec.eq_of_toNat_eq ?_
  have hnibble (b : Nat) (hb : b < 2) : nibble (u.getD i 0) b = nibble (u'.getD i 0) b := by
    have hdigit := getElem?_uuidRender_digit hu hi hb
    rw [h, getElem?_uuidRender_digit hu' hi hb] at hdigit
    exact (hexDigit_injective (nibble_lt ..) (nibble_lt ..) (Option.some.inj hdigit)).symm
  rw [toNat_eq_nibbles, toNat_eq_nibbles (u'.getD i 0), hnibble 0 (by decide), hnibble 1 (by decide)]

theorem forceVersion_eq_iff (y z : Byte) : forceVersion y = forceVersion z ↔ y.toNat % 16 = z.toNat % 16 := by
  rw [← BitVec.toNat_inj, toNat_forceVersion, toNat_forceVersion, Nat.add_right_cancel_iff]

theorem forceVariant_eq_iff (y z : Byte) : forceVariant y = forceVariant z ↔ y.toNat % 64 = z.toNat % 64 := by
  rw [← BitVec.toNat_inj, toNat_forceVariant, toNat_forceVariant, Nat.add_right_cancel_iff]

/-- Two forced sequences are equal when the inputs agree in all that is not forced. -/
theorem uuidForce_eq_iff {r r' : List Byte} (hr : r.length = 16) (hr' : r'.length = 16) :
    uuidForce r = uuidForce r' ↔ (∀ i, i < 16 → i ≠ 6 → i ≠ 8 → r.getD i 0 = r'.getD i 0) ∧
      (r.getD 6 0).toNat % 16 = (r'.getD 6 0).toNat % 16 ∧ (r.getD 8 0).toNat % 64 = (r'.getD 8 0).toNat % 64 := by
  rw [eq_iff_forall_getD ((length_uuidForce r).trans hr) ((length_uuidForce r').trans hr'),
    ← forceVersion_eq_iff, ← forceVariant_eq_iff, ← getD_uuidForce_six (by omega), ← getD_uuidForce_six (by omega),
    ← getD_uuidForce_eight (by omega), ← getD_uuidForce_eight (by omega)]
  constructor
  · refine fun h => ⟨fun i hi h6 h8 => ?_, h 6 (by decide), h 8 (by decide)⟩
    rw [← getD_uuidForce_of_ne r h6 h8, ← getD_uuidForce_of_ne r' h6 h8, h i hi]
  · rintro ⟨hrest, h6, h8⟩ i hi
    by_cases hi6 : i = 6
    · exact hi6 ▸ h6
    by_cases hi8 : i = 8
    · exact hi8 ▸ h8
    · rw [getD_uuidForce_of_ne r hi6 hi8, getD_uuidForce_of_ne r' hi6 hi8, hrest i hi hi6 hi8]

/-- Settles O42: the string determines the forced sequence, and that the bits that are not forced. -/
theorem uuidStringDecidesUnforcedBits : Obligations.UuidStringDecidesUnforcedBits := by
  intro r r' hr hr'
  have hinj : uuidRender (uuidForce r) = uuidRender (uuidForce r') ↔ uuidForce r = uuidForce r' :=
    ⟨uuidRender_injective ((length_uuidForce r).trans hr) ((length_uuidForce r').trans hr'), congrArg uuidRender⟩
  rw [hinj, uuidForce_eq_iff hr hr']

end Sys2Proof.Machine
end
